-- ==== Sys2Proof/Word.lean ====
section
/-! DEFINITION. The words of the CORE: instruction words, bus addresses and data, codewords, and bit vectors whose
width is a parameter (R11, R50, R52, R70). -/

namespace Sys2Proof

/-- An instruction word, one entry of a program ROM (R50, R74, R80). -/
abbrev Word := BitVec 16

/-- A register-bus address, BUS_AW = 6 (R9, R52). -/
abbrev BusAddr := BitVec 6

/-- A register-bus data unit, BUS_DW = 8 (R9, R52). -/
abbrev BusData := BitVec 8

/-- A line codeword; bit 9 is transmitted first (R70, R71). -/
abbrev Codeword := BitVec 10

/-- A bit vector whose width is a parameter of the CORE: entry `i` of the list is bit `i`, so the head is the least
significant bit (R11). The widths are kept by the invariant of Safety.lean (log 13). -/
abbrev Bits := List Bool

/-- The name of a clock domain (R20, D3). -/
abbrev Domain := Nat

/-- The two ISAs a sequencer may be built with (R155). -/
inductive Isa
  | csr
  | sc
  deriving DecidableEq, Repr, Inhabited

/-- A symbol `(d, k)`: a data byte and its control flag (R16). -/
structure Symbol where
  data : BitVec 8
  isControl : Bool
  deriving DecidableEq, Repr, Inhabited

end Sys2Proof
end

