-- ==== Sys2Proof/Config.lean ====
section
/-! DEFINITION. What is fixed for a machine (the parameters of R9), what the outside world drives at one instant (the
input ports of 10_state.md), and the free values: constants without a body for whatever the spec leaves UNSPECIFIED or
OPEN (93_implementation_defined.md). -/

namespace Sys2Proof

/-- The width and taps of an LFSR (R9, R135). Bit positions count from LSB = 0. -/
structure Lfsr where
  nState : Nat
  tap1 : Nat
  tap2 : Nat
  deriving DecidableEq, Repr, Inhabited

/-- The clock domain of each agent (R20, D3). -/
structure Clocks where
  enc : Domain
  aln : Domain
  gen : Domain
  chk : Domain
  csr : Domain
  sc : Domain
  deriving DecidableEq, Repr, Inhabited

/-- The OPEN parameters of the serial-config target (R9, R185, D37): the addresses of its frequency, transfer-control
and idle registers, its start and stop commands, what the idle register reads while the target is idle, and for each
octet the (address, data) writes that send it, entry `k` for the octet `k` (log 18). -/
structure ScTarget where
  freqAddr : BusAddr
  xferAddr : BusAddr
  idleAddr : BusAddr
  cmdStart : BusData
  cmdStop : BusData
  idleValue : BusData
  cmdWrites : Vector (List (BusAddr × BusData)) 256
  deriving DecidableEq, Repr, Inhabited

/-- `SC_CMD_WRITE(octet)` (R9). -/
def ScTarget.cmdWrite (t : ScTarget) (octet : BusData) : List (BusAddr × BusData) := t.cmdWrites[octet.toNat]

/-- The parameters of the CORE (R9) and the two program ROMs (R38, R50), fixed at construction. A program of `none` is
one that has not been constructed yet (R224; log 7). -/
structure Params where
  nLanes : Nat
  encLatency : Nat
  alignW : Nat
  alignComma : Codeword
  genLfsr : Lfsr
  nOut : Nat
  genSeed : Nat
  chkLfsr : Lfsr
  nIn : Nat
  chkSeed : Nat
  csrProgram : Option (List Word)
  scProgram : Option (List Word)
  scTarget : ScTarget
  clocks : Clocks
  deriving DecidableEq, Repr, Inhabited

/-- The default LFSR, `x^23 + x^18 + 1` (R9, R137). -/
def Lfsr.default : Lfsr := { nState := 23, tap1 := 17, tap2 := 22 }

/-- FREE VALUE: `SC_CMD_STOP` of `State.reset`, for which the spec has no example (log 18). -/
opaque Config.scCmdStop : BusData

/-- FREE VALUE: `SC_CMD_WRITE(octet)` of `State.reset`, for which the spec has no example (log 18). -/
opaque Config.scCmdWrite (octet : BusData) : List (BusAddr × BusData)

/-- The serial-config target of `State.reset`: the illustrative values of R195, and free values where it has none
(log 18). -/
def ScTarget.default : ScTarget where
  freqAddr := 0#6
  xferAddr := 1#6
  idleAddr := 2#6
  cmdStart := 0x01#8
  cmdStop := Config.scCmdStop
  idleValue := 0x01#8
  cmdWrites := Vector.ofFn fun k => Config.scCmdWrite (BitVec.ofNat 8 k.val)

/-- The parameters of `State.reset`: the defaults of R9, and for the OPEN ones the values of the spec's examples. No
program has been constructed. DESIGN CHOICE for the OPEN ones (log 3, 5, 7, 18). -/
def Params.default : Params where
  nLanes := 2
  encLatency := 1
  alignW := 2
  alignComma := 0b1101010100#10
  genLfsr := Lfsr.default
  nOut := 16
  genSeed := 1
  chkLfsr := Lfsr.default
  nIn := 16
  chkSeed := 1
  csrProgram := none
  scProgram := none
  scTarget := ScTarget.default
  clocks := { enc := 1, aln := 1, gen := 1, chk := 1, csr := 0, sc := 0 }

/-- What a bus target drives on a sequencer's inputs (R37). -/
structure BusIn where
  ack : Bool
  datR : BusData
  deriving DecidableEq, Repr, Inhabited

/-- Everything the outside world drives at one instant: which clock domains have an edge, which have `rst` asserted
(R220), and the input ports of every agent (R22, R27, R32, R37). `din` and `i` hold the bits of their ports, bit 0 the
port's bit 0; a port reads the low bits its width takes (log 14). -/
structure Instant where
  edges : List Domain
  rst : List Domain
  symbols : List Symbol
  din : Nat
  i : Nat
  csrBus : BusIn
  scBus : BusIn
  deriving DecidableEq, Repr, Inhabited

/-- FREE VALUE: what the outside world drives at step `time` when the script is empty (log 4). -/
opaque Config.freeInstant (time : Nat) : Instant

/-- FREE VALUE (U1): what a reset at `time` leaves in `out[lane]`, and in the in-flight stage `stage` when
ENC_LATENCY > 1; stage 0 is the output register (R24, R26, R105; log 6). -/
opaque Config.freeCodeword (time stage lane : Nat) : Codeword

/-- FREE VALUE (U1): what a reset at `time` leaves in `disp[lane]` and its in-flight stages (R25, R26, R105; log 6). -/
opaque Config.freeDisp (time stage lane : Nat) : Bool

/-- FREE VALUE (U1): what a reset at `time` leaves in a sequencer's `ir` (R35; log 6). -/
opaque Config.freeIr (isa : Isa) (time : Nat) : Word

/-- FREE VALUE (U2): `adr` of a sequencer at `time` while `cyc_stb = 0` (R57; log 11). -/
opaque Config.freeAdr (isa : Isa) (time : Nat) : BusAddr

/-- FREE VALUE (U2): `we` of a sequencer at `time` while `cyc_stb = 0` (R57; log 11). -/
opaque Config.freeWe (isa : Isa) (time : Nat) : Bool

/-- FREE VALUE (U2): `dat_w` of a sequencer at `time` while `cyc_stb = 0` (R57; log 11). -/
opaque Config.freeDatW (isa : Isa) (time : Nat) : BusData

/-- FREE VALUE (U2): `dat_w` of a sequencer during a read, a function of `adr_reg` and `ir` and so held stable for the
whole EXECUTE state (R53, R156; log 11). -/
opaque Config.freeReadDatW (isa : Isa) (adrReg : BusAddr) (ir : Word) : BusData

end Sys2Proof
end

