-- ==== Sys2Proof/Syntax.lean ====
section
/-! DEFINITION. The instructions: one constructor per row of spec/opcode_table.json, with the operands R76 and R80 give
each, and the assembler's constructor syntax (R82). -/

namespace Sys2Proof

/-- The instructions of the two ISAs. A bus address is 6 bits, write data and the expected value 8 bits, a bit index 3
bits (R76, R80), so an operand out of range (R83) is not an `Instr`: it is refused in `Stmt`. -/
inductive Instr
  /-- `End` (R167). -/
  | csrEnd
  /-- `Write(address, data)` (R168). -/
  | csrWrite (address : BusAddr) (data : BusData)
  /-- `ReadUntil0(address, bitIndex)` (R169). -/
  | readUntil0 (address : BusAddr) (bitIndex : BitVec 3)
  /-- `ReadUntil1(address, bitIndex)` (R170). -/
  | readUntil1 (address : BusAddr) (bitIndex : BitVec 3)
  /-- `sc.End` (R191). -/
  | scEnd
  /-- `sc.Write(address, data)` (R189). -/
  | scWrite (address : BusAddr) (data : BusData)
  /-- `sc.Wait(address, expectedValue)` (R190). -/
  | scWait (address : BusAddr) (expected : BusData)
  deriving DecidableEq, Repr, Inhabited

/-- The ISA an instruction belongs to. -/
def Instr.isa : Instr → Isa
  | .csrEnd | .csrWrite .. | .readUntil0 .. | .readUntil1 .. => .csr
  | .scEnd | .scWrite .. | .scWait .. => .sc

/-- Is the instruction an `End` of its ISA? -/
def Instr.isEnd : Instr → Bool
  | .csrEnd | .scEnd => true
  | .csrWrite .. | .readUntil0 .. | .readUntil1 .. | .scWrite .. | .scWait .. => false

/-- An instruction as written in source (R82): a constructor name and its numeric arguments. Whether `Write` means CSR
`Write` or `sc.Write` is the ISA tag of the program. -/
structure Stmt where
  name : String
  args : List Nat
  deriving DecidableEq, Repr, Inhabited

/-- Why a word is not an instruction: the reserved SC tag `11` (R81). -/
inductive DecodeError
  | reservedTag
  deriving DecidableEq, Repr

/-- Why the assembler refuses a statement (R82, R83). -/
inductive AsmError
  /-- The name is not one of the ISA's, or the number of arguments is not its own. -/
  | unknownForm
  /-- An argument is outside its range; it is never truncated (R83). -/
  | outOfRange
  deriving DecidableEq, Repr

end Sys2Proof
end

