-- ==== Sys2Proof/WellFormed.lean ====
section
/-! DEFINITION. The construction-time checks: the parameters (R9, R10), programs as ROM words (R202), programs as lists
of instructions, and source statements (R83). A configuration that fails one has no run (R203). -/

namespace Sys2Proof

/-- The legal values of R9 and the constraints of R10 for an LFSR. -/
def Lfsr.legal (l : Lfsr) : Bool :=
  decide (2 ≤ l.nState) && decide (l.tap1 < l.tap2) && decide (l.tap2 < l.nState)

/-- The legal values of R9 and the constraints of R10. A seed is a value of its register's width, and GEN_SEED is
nonzero. -/
def Params.legal (p : Params) : Bool :=
  decide (1 ≤ p.nLanes) && decide (1 ≤ p.encLatency) && decide (1 ≤ p.alignW) &&
  p.genLfsr.legal && decide (1 ≤ p.nOut) && decide (0 < p.genSeed) && decide (p.genSeed < 2 ^ p.genLfsr.nState) &&
  p.chkLfsr.legal && decide (1 ≤ p.nIn) && decide (p.chkSeed < 2 ^ p.chkLfsr.nState)

/-- The tag of a word, `op(w) = w[15:14]` of R202. -/
def tagOf (w : Word) : Nat := (w.extractLsb' 14 2).toNat

/-- A ROM image is a program of the ISA (R202 (a) to (d)): its last word is an `End`, no other word is, and an SC
program holds no word of the reserved tag. -/
def Program.wf (isa : Isa) (program : List Word) : Bool :=
  match program.getLast? with
  | none => false
  | some last =>
    tagOf last == 0 && program.dropLast.all (fun w => tagOf w != 0) &&
    (isa == .csr || program.all (fun w => tagOf w != 3))

/-- The optional check (f) of R202: the ignored bits of R77 are zero. `step` does not make it: R77 gives such words
the same meaning. -/
def Program.ignoredBitsZero (isa : Isa) (program : List Word) : Bool :=
  program.all fun w =>
    match tagOf w with
    | 0 => w.extractLsb' 0 14 == 0#14
    | 1 => true
    | _ => isa == .sc || w.extractLsb' 3 5 == 0#5

/-- An instruction is well-formed in a program of the ISA when it is one of that ISA's (R155). -/
def Instr.wf (isa : Isa) (i : Instr) : Bool := i.isa == isa

/-- A program written as a list of instructions: every one of the ISA, the last an `End` and no other (R202). -/
def Listing.wf (isa : Isa) (listing : List Instr) : Bool :=
  match listing.getLast? with
  | none => false
  | some last => last.isEnd && listing.dropLast.all (fun i => !i.isEnd) && listing.all (Instr.wf isa)

/-- The forms of R82 and the operand ranges of R83. -/
def Stmt.wf (isa : Isa) (s : Stmt) : Bool :=
  match isa, s.name, s.args with
  | _, "End", [] => true
  | _, "Write", [a, d] => decide (a < 64) && decide (d < 256)
  | .csr, "ReadUntil0", [a, b] => decide (a < 64) && decide (b < 8)
  | .csr, "ReadUntil1", [a, b] => decide (a < 64) && decide (b < 8)
  | .sc, "Wait", [a, v] => decide (a < 64) && decide (v < 256)
  | _, _, _ => false

end Sys2Proof
end

