-- ==== Sys2Proof/Decode.lean ====
section
/-! DEFINITION. Instruction words: field extraction, the two decoders (R85, R86), the encoder (R75, R80, R82) and the
assembler (R82, R83). -/

namespace Sys2Proof

/-- `w[15:14]`, the opcode of CSR16 and the tag of SC16 (R74, R80). -/
def opField (w : Word) : BitVec 2 := w.extractLsb' 14 2

/-- `w[13:8]`, the bus address (R76). -/
def adrField (w : Word) : BusAddr := w.extractLsb' 8 6

/-- `w[7:0]`, the write data or the expected value (R76, R80). -/
def immField (w : Word) : BusData := w.extractLsb' 0 8

/-- `w[2:0]`, the polled bit's index (R76); bits [7:3] are ignored (R77). -/
def bitField (w : Word) : BitVec 3 := w.extractLsb' 0 3

/-- The CSR16 decoder, total on every word (R85). -/
def decodeCsr (w : Word) : Instr :=
  match (opField w).toNat with
  | 0 => .csrEnd
  | 1 => .csrWrite (adrField w) (immField w)
  | 2 => .readUntil0 (adrField w) (bitField w)
  | _ => .readUntil1 (adrField w) (bitField w)

/-- The SC16 decoder (R86); the reserved tag is refused by name (R81). -/
def decodeSc (w : Word) : Except DecodeError Instr :=
  match (opField w).toNat with
  | 0 => .ok .scEnd
  | 1 => .ok (.scWrite (adrField w) (immField w))
  | 2 => .ok (.scWait (adrField w) (immField w))
  | _ => .error .reservedTag

/-- The decoder of an ISA: one word, one instruction (R79); no mode bit changes it. -/
def decode : Isa → Word → Except DecodeError Instr
  | .csr, w => .ok (decodeCsr w)
  | .sc, w => decodeSc w

/-- The word of an instruction, ignored bits zero (R75, R80, R82). -/
def encode : Instr → Word
  | .csrEnd => 0#16
  | .csrWrite a d => 0b01#2 ++ a ++ d
  | .readUntil0 a b => 0b10#2 ++ a ++ 0#5 ++ b
  | .readUntil1 a b => 0b11#2 ++ a ++ 0#5 ++ b
  | .scEnd => 0#16
  | .scWrite a d => 0b01#2 ++ a ++ d
  | .scWait a v => 0b10#2 ++ a ++ v

/-- The instruction a source form stands for in a program of the ISA, its arguments taken in range (R82). -/
def stmtInstr (isa : Isa) (s : Stmt) : Option Instr :=
  match isa, s.name, s.args with
  | .csr, "End", [] => some .csrEnd
  | .sc, "End", [] => some .scEnd
  | .csr, "Write", [a, d] => some (.csrWrite (BitVec.ofNat 6 a) (BitVec.ofNat 8 d))
  | .sc, "Write", [a, d] => some (.scWrite (BitVec.ofNat 6 a) (BitVec.ofNat 8 d))
  | .csr, "ReadUntil0", [a, b] => some (.readUntil0 (BitVec.ofNat 6 a) (BitVec.ofNat 3 b))
  | .csr, "ReadUntil1", [a, b] => some (.readUntil1 (BitVec.ofNat 6 a) (BitVec.ofNat 3 b))
  | .sc, "Wait", [a, v] => some (.scWait (BitVec.ofNat 6 a) (BitVec.ofNat 8 v))
  | _, _, _ => none

/-- The assembler: an argument out of range is refused, never truncated (R83). -/
def assemble (isa : Isa) (s : Stmt) : Except AsmError Word :=
  match stmtInstr isa s with
  | none => .error .unknownForm
  | some i => if s.wf isa then .ok (encode i) else .error .outOfRange

/-- The program of R193 for a serial-config target: the frequency register once, then start, the octets and stop, each
followed by a wait on the idle status. Guidance for programs, not a rule of the hardware (log 18). -/
def scTemplate (t : ScTarget) (freq : BusData) (octets : List BusData) : List Instr :=
  let idle := Instr.scWait t.idleAddr t.idleValue
  [.scWrite t.freqAddr freq, .scWrite t.xferAddr t.cmdStart, idle] ++
  octets.flatMap (fun o => (t.cmdWrite o).map (fun c => .scWrite c.1 c.2) ++ [idle]) ++
  [.scWrite t.xferAddr t.cmdStop, idle, .scEnd]

/-- The instruction a table word is, read by the decoder of a sequencer of the ISA: one 16-bit word at one index
(R79), so anything wider is no instruction. -/
def decodeTableWordIn (isa : Isa) (nbits w : Nat) : Option Instr :=
  if nbits ≤ 16 ∧ w < 2 ^ 16 then (decode isa (BitVec.ofNat 16 w)).toOption else none

/-- The instruction a table word is. A word alone does not say its ISA (R155), and the table's serial-config rows
repeat the words of CSR rows; this reads it as a CSR sequencer does (log 8). -/
def decodeTableWord (nbits w : Nat) : Option Instr := decodeTableWordIn .csr nbits w

end Sys2Proof
end

