-- ==== Sys2Proof/Machine/Bits.lean ====
section
/-! DEFINITION. Operations on bit vectors of parametric width, least significant bit first (R11). -/

namespace Sys2Proof.Machine

/-- The low `w` bits of `n`, bit 0 first. -/
def Bits.ofNat (w n : Nat) : Bits := (List.range w).map fun k => n.testBit k

/-- The number a bit vector stands for. -/
def Bits.toNat : Bits → Nat
  | [] => 0
  | b :: bs => b.toNat + 2 * Bits.toNat bs

/-- `v[k]`; a bit above the width reads 0, as zero extension has it (R11). -/
def Bits.bit (v : Bits) (k : Nat) : Bool := v.getD k false

/-- `zext_N(v)` (R11). -/
def Bits.zext (n : Nat) (v : Bits) : Bits := v ++ List.replicate (n - v.length) false

/-- `v[lo+w-1:lo]` (R11). -/
def Bits.field (v : Bits) (lo w : Nat) : Bits := (v.drop lo).take w

/-- `popcount(v)` (R11). -/
def Bits.popcount (v : Bits) : Nat := v.count true

/-- `popcount(v)` of a vector of fixed width (R11). -/
def popcount {w : Nat} (v : BitVec w) : Nat := (List.range w).countP fun k => v.getLsbD k

/-- The bits of a codeword in transmission order, bit 9 first (R71). -/
def transmitted (c : Codeword) : List Bool := (List.range 10).map fun k => c.getLsbD (9 - k)

/-- `ceil(log2 n)`, the width R9, R29, R32 give the registers that index or count up to `n` values. -/
def clog2 (n : Nat) : Nat := if n ≤ 1 then 0 else Nat.log2 (n - 1) + 1

/-- CURSOR_W of a program of `n` instructions (R9, D21). -/
def cursorWidth (n : Nat) : Nat := max 1 (clog2 n)

end Sys2Proof.Machine
end

