-- ==== Sys2Proof/Machine/Agents.lean ====
section
/-! DEFINITION. The registers of each agent, by the names and rules of 10_state.md. -/

namespace Sys2Proof.Machine

/-- One in-flight stage of the Encoder's pipeline: a codeword and a disparity per lane (R26). -/
structure EncStage where
  out : List Codeword
  disp : List Bool
  deriving DecidableEq, Repr, Inhabited

/-- The Encoder: `rd_reg` (R23), the output registers `out[i]` (R24) and `disp[i]` (R25), and the ENC_LATENCY - 1
in-flight stages, newest first (R26). -/
structure Encoder where
  rdReg : Bool
  pipe : List EncStage
  out : List Codeword
  disp : List Bool
  deriving DecidableEq, Repr, Inhabited

/-- The Word Aligner: `buf` (R28), `position` (R29), `commaFound` (R30). -/
structure Aligner where
  buf : Bits
  position : Nat
  commaFound : Bool
  deriving DecidableEq, Repr, Inhabited

/-- The PRBS Generator: `gstate` and `o` (R31). -/
structure Generator where
  gstate : Bits
  o : Bits
  deriving DecidableEq, Repr, Inhabited

/-- The PRBS Checker: `cstate`, `errors` and `error_count` (R32). -/
structure Checker where
  cstate : Bits
  errors : Bits
  errorCount : Nat
  deriving DecidableEq, Repr, Inhabited

/-- The sequencer states of R33 over the EXECUTE kinds of one ISA. -/
inductive Fsm (κ : Type)
  | fetch
  | decode
  | execute (kind : κ)
  | ended
  deriving DecidableEq, Repr, Inhabited

/-- The EXECUTE kinds of the CSR instance (R33). -/
inductive CsrKind
  | write
  | readUntil0
  | readUntil1
  deriving DecidableEq, Repr, Inhabited

/-- The EXECUTE kinds of the serial-config instance (R33). -/
inductive ScKind
  | scWrite
  | wait
  deriving DecidableEq, Repr, Inhabited

/-- A sequencer: `fsm` (R33), `cursor` (R34), `ir` (R35), `adr_reg` (R36). -/
structure Sequencer (κ : Type) where
  fsm : Fsm κ
  cursor : Nat
  ir : Word
  adrReg : BusAddr
  deriving DecidableEq, Repr, Inhabited

/-- A completed bus transaction: `W(adr, data)` or `R(adr, value)` (R177). -/
inductive BusEvent
  | wrote (adr : BusAddr) (data : BusData)
  | read (adr : BusAddr) (value : BusData)
  deriving DecidableEq, Repr, Inhabited

end Sys2Proof.Machine
end

