-- ==== Sys2Proof/Machine/Aligner.lean ====
section
/-! DEFINITION. The Word Aligner (42_word_aligner.md). -/

namespace Sys2Proof.Machine

/-- Does the window `buf[j+9:j]` equal the comma pattern, its earliest bit against `ALIGN_COMMA[0]` (R120)? -/
def matchesAt (comma : Codeword) (buf : Bits) (j : Nat) : Bool := Bits.field buf j 10 == Bits.ofNat 10 comma.toNat

/-- The match set `M` of a tick, in ascending order (R121). -/
def matchSet (alignW : Nat) (comma : Codeword) (buf : Bits) : List Nat :=
  (List.range (10 * alignW)).filter (matchesAt comma buf)

/-- One tick of the Word Aligner (R123). The highest matching offset wins (R122, flagged U4; log 16). -/
def Aligner.tick (alignW : Nat) (comma : Codeword) (din : Bits) (a : Aligner) : Aligner :=
  let buf := a.buf.drop (10 * alignW) ++ din
  match (matchSet alignW comma a.buf).getLast? with
  | some j => { buf := buf, position := j, commaFound := true }
  | none => { buf := buf, position := a.position, commaFound := false }

/-- The combinational output `dout` (R124). -/
def Aligner.dout (alignW : Nat) (a : Aligner) : Bits := Bits.field a.buf a.position (10 * alignW)

end Sys2Proof.Machine
end

