-- ==== Sys2Proof/Machine/Codec.lean ====
section
/-! DEFINITION. The codec tables of 41_encoder.md section 1. Their entries are the spec's general-knowledge passages
GK1 to GK4 (log 15). Literals are most significant bit first, so the leftmost bit is transmitted first (R71). -/

namespace Sys2Proof.Machine

/-- `T6[0]` to `T6[15]` (R90). -/
def t6Low : List (BitVec 6) :=
  [0b100111#6, 0b011101#6, 0b101101#6, 0b110001#6, 0b110101#6, 0b101001#6, 0b011001#6, 0b111000#6,
   0b111001#6, 0b100101#6, 0b010101#6, 0b110100#6, 0b001101#6, 0b101100#6, 0b011100#6, 0b010111#6]

/-- `T6[16]` to `T6[31]` (R90). -/
def t6High : List (BitVec 6) :=
  [0b011011#6, 0b100011#6, 0b010011#6, 0b110010#6, 0b001011#6, 0b101010#6, 0b011010#6, 0b111010#6,
   0b110011#6, 0b100110#6, 0b010110#6, 0b110110#6, 0b001110#6, 0b101110#6, 0b011110#6, 0b101011#6]

/-- The 5b/6b table `T6[x]`: the sub-block emitted at `rd = 0` (R90). -/
def T6 (x : BitVec 5) : BitVec 6 := (t6Low ++ t6High).getD x.toNat 0#6

/-- The control 6-bit sub-block `K6` (R92). -/
def K6 : BitVec 6 := 0b001111#6

/-- The rows of the 3b/4b table (R93). -/
def t4Rows : List (BitVec 4) :=
  [0b1011#4, 0b1001#4, 0b0101#4, 0b1100#4, 0b1101#4, 0b1010#4, 0b0110#4, 0b1110#4]

/-- The 3b/4b table `T4[y]`: the sub-block emitted at `ri = 0` (R93). -/
def T4 (y : BitVec 3) : BitVec 4 := t4Rows.getD y.toNat 0#4

/-- The rows of the control 4-bit table, `K4[y][1]` then `K4[y][0]` (R95). -/
def k4Rows : List (BitVec 4 × BitVec 4) :=
  [(0b0100#4, 0b1011#4), (0b1001#4, 0b0110#4), (0b0101#4, 0b1010#4), (0b0011#4, 0b1100#4),
   (0b0010#4, 0b1101#4), (0b1010#4, 0b0101#4), (0b0110#4, 0b1001#4), (0b1000#4, 0b0111#4)]

/-- The control 4-bit sub-block `K4[y][ri]` (R95). -/
def K4 (y : BitVec 3) (ri : Bool) : BitVec 4 :=
  let row := k4Rows.getD y.toNat (0#4, 0#4)
  if ri then row.1 else row.2

/-- The alternate code of `y = 7` (R94). -/
def alternate7 (ri : Bool) : BitVec 4 := if ri then 0b1000#4 else 0b0111#4

/-- The hazard group in which the alternate code is used at this `ri` (R94). -/
def inHazardGroup (x : BitVec 5) (ri : Bool) : Bool :=
  if ri then [11, 13, 14].contains x.toNat else [17, 18, 20].contains x.toNat

end Sys2Proof.Machine
end

