-- ==== Sys2Proof/Machine/Flags.lean ====
section
/-! DEFINITION. Every flag computation of the spec: the codec tables' unbalanced and flip flags (R91, R93), the
alternate-path condition (R97), and the PRBS error flags and their count (R143). No instruction writes a flag (R39). -/

namespace Sys2Proof.Machine

/-- The unbalanced flag of a 5b/6b entry (R91). -/
def U6 (x : BitVec 5) : Bool := popcount (T6 x) != 3

/-- The flip flag of a 5b/6b entry (R91). -/
def F6 (x : BitVec 5) : Bool := U6 x || x == 7#5

/-- The unbalanced flag of a 3b/4b entry (R93). -/
def U4 (y : BitVec 3) : Bool := popcount (T4 y) != 2

/-- The flip flag of a 3b/4b entry (R93). -/
def F4 (y : BitVec 3) : Bool := U4 y || y == 3#3

/-- `a7` of R97: does this symbol take the alternate 4-bit code? -/
def takesAlternate (x : BitVec 5) (y : BitVec 3) (k ri : Bool) : Bool := y == 7#3 && (k || inHazardGroup x ri)

/-- The error flag of a received bit (R143, R146). -/
def errorFlag (received predicted : Bool) : Bool := received ^^ predicted

/-- `error_count` of a tick's error flags (R143, R147). -/
def errorCountOf (errors : Bits) : Nat := Bits.popcount errors

end Sys2Proof.Machine
end

