-- ==== Sys2Proof/Machine/Encoder.lean ====
section
/-! DEFINITION. The 8b/10b Encoder: one symbol (R96 to R99), the lane chain (R103) and the output pipeline (R104,
R105). -/

namespace Sys2Proof.Machine

/-- Stage 1: the 6-bit sub-block `o6` and the intermediate disparity `ri` (R96). -/
def encode6 (x : BitVec 5) (k rd : Bool) : BitVec 6 × Bool :=
  let c6 := if k then K6 else T6 x
  let u6 := k || U6 x
  let f6 := k || F6 x
  (if rd && f6 then ~~~c6 else c6, rd ^^ u6)

/-- Stage 2: the 4-bit sub-block `o4` and the outgoing disparity (R97, C1, C5). -/
def encode4 (x : BitVec 5) (y : BitVec 3) (k ri : Bool) : BitVec 4 × Bool :=
  if takesAlternate x y k ri then (alternate7 ri, !ri)
  else if k then (K4 y ri, ri ^^ U4 y)
  else (if ri && F4 y then ~~~(T4 y) else T4 y, ri ^^ U4 y)

/-- `encode(d, k, rd)`: the codeword `c = {o6, o4}` and the outgoing disparity (R98). With `k = 1` the low five bits
of `d` do not matter (R99). -/
def encodeSymbol (d : BitVec 8) (k rd : Bool) : Codeword × Bool :=
  let x := d.extractLsb' 0 5
  let y := d.extractLsb' 5 3
  let six := encode6 x k rd
  let four := encode4 x y k six.2
  (six.1 ++ four.1, four.2)

/-- The lanes of one tick, each with its codeword and outgoing disparity: a lane's incoming disparity is the outgoing
one of the lane before it (R103). -/
def encodeLanes : Bool → List Symbol → List (Codeword × Bool)
  | _, [] => []
  | rd, sym :: rest =>
    let r := encodeSymbol sym.data sym.isControl rd
    r :: encodeLanes r.2 rest

/-- `r[N_LANES]`: the disparity after the last lane (R103). -/
def lastDisparity : Bool → List (Codeword × Bool) → Bool
  | rd, [] => rd
  | _, lane :: rest => lastDisparity lane.2 rest

/-- One tick of the Encoder (R103). The new codewords enter the pipeline and the oldest stage reaches the output
registers; with ENC_LATENCY = 1 they go straight there (R104, R105). -/
def Encoder.tick (symbols : List Symbol) (e : Encoder) : Encoder :=
  let lanes := encodeLanes e.rdReg symbols
  let fresh : EncStage := { out := lanes.map Prod.fst, disp := lanes.map Prod.snd }
  let oldest := e.pipe.getLastD fresh
  { rdReg := lastDisparity e.rdReg lanes
    pipe := (fresh :: e.pipe).dropLast
    out := oldest.out
    disp := oldest.disp }

end Sys2Proof.Machine
end

