-- ==== Sys2Proof/Machine/Operands.lean ====
section
/-! DEFINITION. Operand forms: the tests a polling instruction makes of the read data (R163, R164, R188) and the
values an agent reads on its input ports (R22, R27, R32). Every other operand is an immediate field of the word
(R76), extracted in Decode.lean. -/

namespace Sys2Proof.Machine

/-- `dat_r[b]` (R163). -/
def polledBit (datR : BusData) (b : BitVec 3) : Bool := datR.getLsbD b.toNat

/-- A write completes whatever the read data (R161, R187). -/
def anyValue (_datR : BusData) : Bool := true

/-- The test of `ReadUntil0` (R163). -/
def bitIs0 (b : BitVec 3) (datR : BusData) : Bool := polledBit datR b == false

/-- The test of `ReadUntil1` (R164). -/
def bitIs1 (b : BitVec 3) (datR : BusData) : Bool := polledBit datR b == true

/-- The test of `sc.Wait`: all eight bits (R188). -/
def equalsValue (expected : BusData) (datR : BusData) : Bool := datR == expected

/-- The symbols on the Encoder's lanes `0 .. nLanes-1` (R22). -/
def lanePorts (nLanes : Nat) (x : Instant) : List Symbol :=
  (List.range nLanes).map fun k => x.symbols.getD k { data := 0#8, isControl := false }

/-- `din[10·ALIGN_W-1:0]` (R27). -/
def dinPort (alignW : Nat) (x : Instant) : Bits := Bits.ofNat (10 * alignW) x.din

/-- `i[N_IN-1:0]` (R32). -/
def iPort (nIn : Nat) (x : Instant) : Bits := Bits.ofNat nIn x.i

end Sys2Proof.Machine
end

