-- ==== Sys2Proof/Machine/Prbs.lean ====
section
/-! DEFINITION. The PRBS Generator and Checker (43_prbs.md). -/

namespace Sys2Proof.Machine

/-- `predict(E) = E[TAP1] ^ E[TAP2]` (R137). -/
def predict (l : Lfsr) (e : Bits) : Bool := Bits.bit e l.tap1 ^^ Bits.bit e l.tap2

/-- `step(E, b)`: shift `b` in at bit 0 and drop the top bit (R137). -/
def shiftIn (e : Bits) (b : Bool) : Bits := (b :: e).dropLast

/-- `n` steps of the recurrence, each shifting in its own prediction (R138). -/
def generate (l : Lfsr) : Nat → Bits → Bits
  | 0, e => e
  | n + 1, e => generate l n (shiftIn e (predict l e))

/-- One tick of the Generator (R138). -/
def Generator.tick (l : Lfsr) (nOut : Nat) (g : Generator) : Generator :=
  let e := generate l nOut (Bits.zext (max l.nState nOut) g.gstate)
  { gstate := e.take l.nState, o := e.take nOut }

/-- The Checker's pass over received bits in order of time, from the shift register `e` and the error flags found so
far, newest first: the register and the flags after them (R143). -/
def checkBits (l : Lfsr) : List Bool → Bits → Bits → Bits × Bits
  | [], e, errs => (e, errs)
  | b :: rest, e, errs => checkBits l rest (shiftIn e b) (errorFlag b (predict l e) :: errs)

/-- One tick of the Checker: `i[N_IN-1]` is the first bit in time, and the register takes the received bits (R142,
R143). -/
def Checker.tick (l : Lfsr) (nIn : Nat) (i : Bits) (c : Checker) : Checker :=
  let r := checkBits l i.reverse (Bits.zext (max l.nState nIn) c.cstate) []
  { cstate := r.1.take l.nState, errors := r.2, errorCount := errorCountOf r.2 }

end Sys2Proof.Machine
end

