-- ==== Sys2Proof/Machine/Reset.lean ====
section
/-! DEFINITION. The reset value of every register (R42). A register the spec leaves UNSPECIFIED takes a free value,
drawn at the step `time` of the reset (R220, U1; log 6). -/

namespace Sys2Proof.Machine

/-- One stage of Encoder outputs as a reset leaves it (R24, R25, R105). -/
def EncStage.freeAt (nLanes time stage : Nat) : EncStage where
  out := (List.range nLanes).map (Config.freeCodeword time stage)
  disp := (List.range nLanes).map (Config.freeDisp time stage)

/-- The Encoder after a reset: `rd_reg` is RD-, the outputs are free (R23 to R26). -/
def Encoder.resetAt (p : Params) (time : Nat) : Encoder where
  rdReg := false
  pipe := (List.range (p.encLatency - 1)).map fun k => EncStage.freeAt p.nLanes time (k + 1)
  out := (EncStage.freeAt p.nLanes time 0).out
  disp := (EncStage.freeAt p.nLanes time 0).disp

/-- The Word Aligner after a reset (R28 to R30). -/
def Aligner.resetFor (p : Params) : Aligner where
  buf := List.replicate (20 * p.alignW) false
  position := 0
  commaFound := false

/-- The Generator after a reset (R31). -/
def Generator.resetFor (p : Params) : Generator where
  gstate := Bits.ofNat p.genLfsr.nState p.genSeed
  o := List.replicate p.nOut false

/-- The Checker after a reset (R32). -/
def Checker.resetFor (p : Params) : Checker where
  cstate := Bits.ofNat p.chkLfsr.nState p.chkSeed
  errors := List.replicate p.nIn false
  errorCount := 0

/-- A sequencer after a reset: FETCH at index 0, `adr_reg` 0, `ir` free (R33 to R36). -/
def Sequencer.resetAt {κ : Type} (isa : Isa) (time : Nat) : Sequencer κ where
  fsm := .fetch
  cursor := 0
  ir := Config.freeIr isa time
  adrReg := 0#6

end Sys2Proof.Machine
end

