-- ==== Sys2Proof/Machine/State.lean ====
section
/-! DEFINITION. The state of the CORE, plain data: the registers of every agent (R42), the configuration it was built
with (R9, R38), and the model's own step counter, input script and bus traces (INVENTORY.md, State). -/

namespace Sys2Proof.Machine

/-- Reasons the machine faults. There is none: "No component of the CORE raises an exception, takes a trap or changes
control flow because of an error" (R200). -/
inductive Fault
  deriving DecidableEq, Repr

/-- Reasons a step is refused. -/
inductive Refusal
  /-- Raised by `exec` for an instruction that has no meaning yet; no arm raises it now. Safe: the machine stops. -/
  | notModelled (mnemonic : String)
  /-- Raised by `step` when the parameters violate R9 or R10: "it is not a running configuration". Safe: the spec
  gives such a configuration no run (R203). -/
  | illegalParameters
  /-- Raised by `step` when a constructed program fails R202. Safe: the spec gives it no run (R203, U3, U5). -/
  | illFormedProgram (isa : Isa)
  /-- Raised by a FETCH at an index past the program, which no legal run reaches (R51, R202). Safe: U5 leaves the
  behaviour UNSPECIFIED, to be refused. -/
  | fetchPastProgram (isa : Isa)
  /-- Raised by a serial-config DECODE of the reserved tag `11`, which no legal run reaches (R81, R186). Safe: U3
  leaves the behaviour UNSPECIFIED, to be refused. -/
  | reservedTag
  deriving DecidableEq, Repr

/-- The state of the CORE. -/
structure State where
  /-- The configuration: parameters and program ROMs. No step changes it (R9, R38). -/
  params : Params
  /-- The Encoder (R23 to R26). -/
  enc : Encoder
  /-- The Word Aligner (R28 to R30). -/
  aln : Aligner
  /-- The PRBS Generator (R31). -/
  gen : Generator
  /-- The PRBS Checker (R32). -/
  chk : Checker
  /-- The CSR sequencer (R33 to R36). -/
  csr : Sequencer CsrKind
  /-- The serial-config sequencer (R33 to R36). -/
  sc : Sequencer ScKind
  /-- The model's own: the number of steps taken, which indexes the free values (log 4). -/
  time : Nat
  /-- The model's own: the instants the outside world has announced, oldest first (log 4). -/
  script : List Instant
  /-- The model's own: the CSR sequencer's bus trace since its last reset, oldest first (R177; log 12). -/
  csrTrace : List BusEvent
  /-- The model's own: the serial-config sequencer's bus trace since its last reset, oldest first (R194; log 12). -/
  scTrace : List BusEvent
  deriving DecidableEq, Repr, Inhabited

/-- The state right after a reset of every clock domain of a machine with these parameters (R42, R221). -/
def State.resetFor (p : Params) : State where
  params := p
  enc := Encoder.resetAt p 0
  aln := Aligner.resetFor p
  gen := Generator.resetFor p
  chk := Checker.resetFor p
  csr := Sequencer.resetAt .csr 0
  sc := Sequencer.resetAt .sc 0
  time := 0
  script := []
  csrTrace := []
  scTrace := []

/-- The machine right after reset, with the default parameters and no program constructed (log 3, 5, 7). -/
def State.reset : State := State.resetFor Params.default

end Sys2Proof.Machine
end

