-- ==== Sys2Proof/Machine/Ops.lean ====
section
/-! DEFINITION. The named operations of the machine: the instant being stepped, the clocking and reset of an agent
(R220), the sequencers' shared skeleton (R155 to R165), the bus outputs (R37, R156) and construction (R202, R203).

The CORE takes no exception and returns from none: no state is saved and no vector exists (R200, R210), so the only
forced change of an agent's state is its domain's reset, the one operation `State.clocked` below. -/

namespace Sys2Proof.Machine

/-- What a step answers. -/
abbrev Out := Host.Outcome State Fault Refusal

/-- Go on from the next state; a stop stays a stop. -/
def andThen (o : Out) (f : State → Out) : Out :=
  match o with
  | .next s => f s
  | .fault r => .fault r
  | .refused r => .refused r

/-! ### The instant being stepped -/

/-- What the outside world drives in this step: the oldest instant of the script, free when there is none (log 4). -/
def State.now (s : State) : Instant :=
  match s.script with
  | x :: _ => x
  | [] => Config.freeInstant s.time

/-- Does the clock domain have an edge in this step? -/
def State.edge (s : State) (d : Domain) : Bool := s.now.edges.contains d

/-- Is the domain's reset asserted in this step? -/
def State.rst (s : State) (d : Domain) : Bool := s.now.rst.contains d

/-- The next registers of an agent of domain `d`: without an edge it keeps them (R20), with `rst` it takes its reset
values whatever its step rule says (R209, R220), and otherwise it steps. -/
def State.clocked {α : Type} (s : State) (d : Domain) (hold onReset onTick : α) : α :=
  if s.edge d then (if s.rst d then onReset else onTick) else hold

/-- The stream agents' step, all four from the same snapshot (R12, R225). -/
def State.tickStreams (s : State) : State :=
  let p := s.params
  { s with
    enc := s.clocked p.clocks.enc s.enc (Encoder.resetAt p s.time) (s.enc.tick (lanePorts p.nLanes s.now))
    aln := s.clocked p.clocks.aln s.aln (Aligner.resetFor p)
      (s.aln.tick p.alignW p.alignComma (dinPort p.alignW s.now))
    gen := s.clocked p.clocks.gen s.gen (Generator.resetFor p) (s.gen.tick p.genLfsr p.nOut)
    chk := s.clocked p.clocks.chk s.chk (Checker.resetFor p) (s.chk.tick p.chkLfsr p.nIn (iPort p.nIn s.now)) }

/-- The end of a step: the instant is over. -/
def State.endInstant (s : State) : State := { s with time := s.time + 1, script := s.script.tail }

/-! ### The sequencers' shared skeleton -/

/-- FETCH: `ir' = ProgRead(cursor)` and DECODE is next (R157). -/
def Sequencer.fetched {κ : Type} (q : Sequencer κ) (w : Word) : Sequencer κ := { q with ir := w, fsm := .decode }

/-- DECODE: load `adr_reg` and go to the instruction's state (R158, R186). -/
def Sequencer.dispatched {κ : Type} (q : Sequencer κ) (a : BusAddr) (next : Fsm κ) : Sequencer κ :=
  { q with adrReg := a, fsm := next }

/-- Advance: the cursor goes up by 1 at CURSOR_W bits and FETCH is next (R160). -/
def Sequencer.advanced {κ : Type} (q : Sequencer κ) (progLen : Nat) : Sequencer κ :=
  { q with cursor := (q.cursor + 1) % 2 ^ cursorWidth progLen, fsm := .fetch }

/-- One EXECUTE tick of either ISA: without `ack` everything stays (R159); with it a transaction completes, and the
instruction advances if its test of the read data holds, else it stays and retries (R161, R163, R164, R187, R188). -/
def executeTick {κ : Type} (progLen : Nat) (bus : BusIn) (test : BusData → Bool) (event : BusData → BusEvent)
    (q : Sequencer κ) (trace : List BusEvent) : Sequencer κ × List BusEvent :=
  if bus.ack then (if test bus.datR then q.advanced progLen else q, trace ++ [event bus.datR]) else (q, trace)

/-- PROG_LEN of the CSR sequencer (R9). -/
def State.csrLen (s : State) : Nat := (s.params.csrProgram.getD []).length

/-- PROG_LEN of the serial-config sequencer (R9). -/
def State.scLen (s : State) : Nat := (s.params.scProgram.getD []).length

/-- The CSR sequencer's DECODE tick. -/
def State.csrDispatch (s : State) (a : BusAddr) (next : Fsm CsrKind) : State :=
  { s with csr := s.csr.dispatched a next }

/-- The serial-config sequencer's DECODE tick. -/
def State.scDispatch (s : State) (a : BusAddr) (next : Fsm ScKind) : State := { s with sc := s.sc.dispatched a next }

/-- The CSR sequencer's EXECUTE tick. -/
def State.csrExecute (s : State) (test : BusData → Bool) (event : BusData → BusEvent) : State :=
  let r := executeTick s.csrLen s.now.csrBus test event s.csr s.csrTrace
  { s with csr := r.1, csrTrace := r.2 }

/-- The serial-config sequencer's EXECUTE tick. -/
def State.scExecute (s : State) (test : BusData → Bool) (event : BusData → BusEvent) : State :=
  let r := executeTick s.scLen s.now.scBus test event s.sc s.scTrace
  { s with sc := r.1, scTrace := r.2 }

/-- The CSR sequencer's FETCH tick (R157); past the program there is nothing to fetch (R51, U5). -/
def State.csrFetch (program : List Word) (s : State) : Out :=
  match program[s.csr.cursor]? with
  | some w => .next { s with csr := s.csr.fetched w }
  | none => .refused (.fetchPastProgram .csr)

/-- The serial-config sequencer's FETCH tick (R157); past the program there is nothing to fetch (R51, U5). -/
def State.scFetch (program : List Word) (s : State) : Out :=
  match program[s.sc.cursor]? with
  | some w => .next { s with sc := s.sc.fetched w }
  | none => .refused (.fetchPastProgram .sc)

/-- The CSR sequencer's reset; its trace starts anew (R220; log 12). -/
def State.csrReset (s : State) : State := { s with csr := Sequencer.resetAt .csr s.time, csrTrace := [] }

/-- The serial-config sequencer's reset; its trace starts anew (R220; log 12). -/
def State.scReset (s : State) : State := { s with sc := Sequencer.resetAt .sc s.time, scTrace := [] }

/-- The instruction of an EXECUTE state of the CSR instance, its operands read from `ir` (R163, R168). -/
def CsrKind.instr (k : CsrKind) (ir : Word) : Instr :=
  match k with
  | .write => .csrWrite (adrField ir) (immField ir)
  | .readUntil0 => .readUntil0 (adrField ir) (bitField ir)
  | .readUntil1 => .readUntil1 (adrField ir) (bitField ir)

/-- The instruction of an EXECUTE state of the serial-config instance, its operands read from `ir` (R187, R188). -/
def ScKind.instr (k : ScKind) (ir : Word) : Instr :=
  match k with
  | .scWrite => .scWrite (adrField ir) (immField ir)
  | .wait => .scWait (adrField ir) (immField ir)

/-! ### Bus outputs -/

/-- The bus-master outputs of a sequencer (R37). -/
structure BusOut where
  cycStb : Bool
  we : Bool
  adr : BusAddr
  datW : BusData
  deriving DecidableEq, Repr, Inhabited

/-- `we` is 1 exactly in the writing EXECUTE states (R37). -/
def CsrKind.isWrite : CsrKind → Bool
  | .write => true
  | .readUntil0 | .readUntil1 => false

/-- `we` is 1 exactly in the writing EXECUTE states (R37). -/
def ScKind.isWrite : ScKind → Bool
  | .scWrite => true
  | .wait => false

/-- The combinational bus outputs of a sequencer state (R37). The UNSPECIFIED entries of R156 are free (U2; log 11); in
an EXECUTE state every request field is a function of `fsm`, `adr_reg` and `ir` (R53). -/
def busOutOf {κ : Type} (isa : Isa) (isWrite : κ → Bool) (time : Nat) (q : Sequencer κ) : BusOut :=
  match q.fsm with
  | .execute k =>
    { cycStb := true, we := isWrite k, adr := q.adrReg
      datW := if isWrite k then immField q.ir else Config.freeReadDatW isa q.adrReg q.ir }
  | .fetch | .decode | .ended =>
    { cycStb := false, we := Config.freeWe isa time, adr := Config.freeAdr isa time
      datW := Config.freeDatW isa time }

/-- The CSR sequencer's bus outputs. -/
def State.csrBusOut (s : State) : BusOut := busOutOf .csr CsrKind.isWrite s.time s.csr

/-- The serial-config sequencer's bus outputs. -/
def State.scBusOut (s : State) : BusOut := busOutOf .sc ScKind.isWrite s.time s.sc

/-- Every output of the CORE in one instant (R24, R25, R27, R31, R32, R37), with the predicate `fsm = END` of each
sequencer (R39). -/
structure Outputs where
  out : List Codeword
  disp : List Bool
  dout : Bits
  position : Nat
  commaFound : Bool
  o : Bits
  errors : Bits
  errorCount : Nat
  csrBus : BusOut
  scBus : BusOut
  csrEnded : Bool
  scEnded : Bool
  deriving DecidableEq, Repr, Inhabited

/-- The outputs of a state. -/
def State.outputs (s : State) : Outputs where
  out := s.enc.out
  disp := s.enc.disp
  dout := s.aln.dout s.params.alignW
  position := s.aln.position
  commaFound := s.aln.commaFound
  o := s.gen.o
  errors := s.chk.errors
  errorCount := s.chk.errorCount
  csrBus := s.csrBusOut
  scBus := s.scBusOut
  csrEnded := s.csr.fsm == .ended
  scEnded := s.sc.fsm == .ended

/-! ### Construction and loading -/

/-- Why a configuration has no run, if it has none: its parameters (R10) or a constructed program (R202). -/
def refusalOf (p : Params) : Option Refusal :=
  if !p.legal then some .illegalParameters
  else if !p.csrProgram.all (Program.wf .csr) then some (.illFormedProgram .csr)
  else if !p.scProgram.all (Program.wf .sc) then some (.illFormedProgram .sc)
  else none

/-- The smallest program that begins with a word: the word and an `End`, or the word alone if it is one (R202). -/
def programOf (w : Word) : List Word := if tagOf w == 0 then [w] else [w, 0#16]

/-- One instant in which only domain `d` has an edge, without reset (log 7). -/
def onlyEdge (d : Domain) : Instant where
  edges := [d]
  rst := []
  symbols := []
  din := 0
  i := 0
  csrBus := { ack := false, datR := 0#8 }
  scBus := { ack := false, datR := 0#8 }

/-- Load the program `programOf w` into the CSR sequencer and put it just after its FETCH of `w`, with a clock edge to
come (log 7). -/
def State.placeCsrWord (s : State) (w : Word) : State :=
  { s with
    params := { s.params with csrProgram := some (programOf w) }
    csr := { s.csr with fsm := .decode, cursor := 0, ir := w }
    script := onlyEdge s.params.clocks.csr :: s.script }

/-- Load the program `programOf w` into the serial-config sequencer and put it just after its FETCH of `w`, with a
clock edge to come (log 7). -/
def State.placeScWord (s : State) (w : Word) : State :=
  { s with
    params := { s.params with scProgram := some (programOf w) }
    sc := { s.sc with fsm := .decode, cursor := 0, ir := w }
    script := onlyEdge s.params.clocks.sc :: s.script }

end Sys2Proof.Machine
end

