-- ==== Sys2Proof/Machine/CsrSequencer.lean ====
section
/-! DEFINITION. The CSR-sequencer instructions (44_sequencer_csr.md section 2). A meaning is one tick of its
instruction: the DECODE tick, or one tick in the instruction's own EXECUTE state; in any other state the instruction is
not in progress and nothing is assigned (R166; log 10). -/

namespace Sys2Proof.Machine

/-- `End` (R158, R167): `adr_reg` takes `ir[13:8]`, END is next, and `cursor` stays. -/
def execCsrEnd (s : State) : Out :=
  .next (match s.csr.fsm with
    | .decode => s.csrDispatch (adrField s.csr.ir) .ended
    | .fetch | .execute _ | .ended => s)

/-- `Write(address, data)` (R158, R161, R168). -/
def execCsrWrite (address : BusAddr) (data : BusData) (s : State) : Out :=
  .next (match s.csr.fsm with
    | .decode => s.csrDispatch address (.execute .write)
    | .execute .write => s.csrExecute anyValue (fun _ => .wrote s.csr.adrReg data)
    | .fetch | .execute .readUntil0 | .execute .readUntil1 | .ended => s)

/-- `ReadUntil0(address, bitIndex)` (R158, R163, R169). -/
def execReadUntil0 (address : BusAddr) (bitIndex : BitVec 3) (s : State) : Out :=
  .next (match s.csr.fsm with
    | .decode => s.csrDispatch address (.execute .readUntil0)
    | .execute .readUntil0 => s.csrExecute (bitIs0 bitIndex) (.read s.csr.adrReg)
    | .fetch | .execute .write | .execute .readUntil1 | .ended => s)

/-- `ReadUntil1(address, bitIndex)` (R158, R164, R170). -/
def execReadUntil1 (address : BusAddr) (bitIndex : BitVec 3) (s : State) : Out :=
  .next (match s.csr.fsm with
    | .decode => s.csrDispatch address (.execute .readUntil1)
    | .execute .readUntil1 => s.csrExecute (bitIs1 bitIndex) (.read s.csr.adrReg)
    | .fetch | .execute .write | .execute .readUntil0 | .ended => s)

end Sys2Proof.Machine
end

