-- ==== Sys2Proof/Machine/ScSequencer.lean ====
section
/-! DEFINITION. The serial-config instructions (45_sequencer_serial_config.md section 3), each one tick of its
instruction as in CsrSequencer.lean (R192; log 10). -/

namespace Sys2Proof.Machine

/-- `sc.End` (R186, R191): `adr_reg` takes `ir[13:8]`, END is next, and `cursor` stays. -/
def execScEnd (s : State) : Out :=
  .next (match s.sc.fsm with
    | .decode => s.scDispatch (adrField s.sc.ir) .ended
    | .fetch | .execute _ | .ended => s)

/-- `sc.Write(address, data)` (R186, R187, R189). -/
def execScWrite (address : BusAddr) (data : BusData) (s : State) : Out :=
  .next (match s.sc.fsm with
    | .decode => s.scDispatch address (.execute .scWrite)
    | .execute .scWrite => s.scExecute anyValue (fun _ => .wrote s.sc.adrReg data)
    | .fetch | .execute .wait | .ended => s)

/-- `sc.Wait(address, expectedValue)` (R186, R188, R190). -/
def execScWait (address : BusAddr) (expected : BusData) (s : State) : Out :=
  .next (match s.sc.fsm with
    | .decode => s.scDispatch address (.execute .wait)
    | .execute .wait => s.scExecute (equalsValue expected) (.read s.sc.adrReg)
    | .fetch | .execute .scWrite | .ended => s)

end Sys2Proof.Machine
end

