-- ==== Sys2Proof/Machine/Dispatch.lean ====
section
/-! DEFINITION. One arm per instruction of spec/opcode_table.json. -/

namespace Sys2Proof.Machine

def exec (i : Instr) (s : State) : Host.Outcome State Fault Refusal :=
  match i with
  -- the CSR ISA
  | .csrEnd => Sys2Proof.Machine.execCsrEnd s
  | .csrWrite address data => Sys2Proof.Machine.execCsrWrite address data s
  | .readUntil0 address bitIndex => Sys2Proof.Machine.execReadUntil0 address bitIndex s
  | .readUntil1 address bitIndex => Sys2Proof.Machine.execReadUntil1 address bitIndex s
  -- the serial-config ISA
  | .scEnd => Sys2Proof.Machine.execScEnd s
  | .scWrite address data => Sys2Proof.Machine.execScWrite address data s
  | .scWait address expected => Sys2Proof.Machine.execScWait address expected s

end Sys2Proof.Machine
end

