-- ==== Sys2Proof/Machine/Tick.lean ====
section
/-! DEFINITION. One tick of each sequencer: FETCH reads the program, DECODE and EXECUTE run the instruction in `ir`,
END does nothing (R166, R192). A sequencer whose program has not been constructed has not started (R224; log 7). -/

namespace Sys2Proof.Machine

/-- A tick of the running CSR sequencer (R166). -/
def State.csrRun (program : List Word) (s : State) : Out :=
  match s.csr.fsm with
  | .fetch => s.csrFetch program
  | .decode => exec (decodeCsr s.csr.ir) s
  | .execute k => exec (k.instr s.csr.ir) s
  | .ended => .next s

/-- A tick of the running serial-config sequencer (R192). The reserved tag is refused (R81, U3). -/
def State.scRun (program : List Word) (s : State) : Out :=
  match s.sc.fsm with
  | .fetch => s.scFetch program
  | .decode =>
    match decodeSc s.sc.ir with
    | .ok i => exec i s
    | .error .reservedTag => .refused .reservedTag
  | .execute k => exec (k.instr s.sc.ir) s
  | .ended => .next s

/-- The CSR sequencer's part of a step. -/
def State.csrTick (s : State) : Out :=
  s.clocked s.params.clocks.csr (.next s) (.next s.csrReset)
    (match s.params.csrProgram with
      | some program => s.csrRun program
      | none => .next s)

/-- The serial-config sequencer's part of a step. -/
def State.scTick (s : State) : Out :=
  s.clocked s.params.clocks.sc (.next s) (.next s.scReset)
    (match s.params.scProgram with
      | some program => s.scRun program
      | none => .next s)

/-- One instant: every agent whose domain has an edge takes a tick. They share no register, so the order in which
their parts are computed does not matter (R12, R20, R176). -/
def State.instant (s : State) : Out :=
  andThen s.csrTick fun s1 => andThen s1.scTick fun s2 => .next s2.tickStreams.endInstant

end Sys2Proof.Machine
end

