-- ==== Sys2Proof/Machine/Step.lean ====
section
/-! DEFINITION. The step of the machine. -/

namespace Sys2Proof.Machine

/-- One step: a refused configuration has no run (R203); any other takes one instant. -/
def step (s : State) : Host.Outcome State Fault Refusal :=
  match refusalOf s.params with
  | some r => .refused r
  | none => s.instant

/-- `s` with a CSR program loaded that begins with the word `w`, the sequencer just past its FETCH of it and its clock
about to tick, so that the next step runs `w` (log 7, 8). -/
def State.withFetchWord (s : State) (_nbits w : Nat) : State := s.placeCsrWord (BitVec.ofNat 16 w)

/-- The same for the serial-config sequencer (log 8). -/
def State.withScFetchWord (s : State) (_nbits w : Nat) : State := s.placeScWord (BitVec.ofNat 16 w)

end Sys2Proof.Machine
end

