-- ==== Sys2Proof/Safety.lean ====
section
/-! DEFINITION. What holds of every state a legal machine reaches: the widths of the registers (R42), the relations
between a sequencer's registers (R34 to R36), that the bus trace is the one the program prescribes (R177, R194),
and the vocabulary the statements are written in. -/

namespace Sys2Proof.Machine

/-- One value per lane (R24, R25). -/
structure EncStage.WF (nLanes : Nat) (st : EncStage) : Prop where
  out : st.out.length = nLanes
  disp : st.disp.length = nLanes

/-- The Encoder's widths (R24 to R26). -/
structure Encoder.WF (p : Params) (e : Encoder) : Prop where
  out : e.out.length = p.nLanes
  disp : e.disp.length = p.nLanes
  pipe : e.pipe.length = p.encLatency - 1
  stages : ∀ st ∈ e.pipe, st.WF p.nLanes

/-- The Word Aligner's widths, and `position` a legal value (R28, R29). -/
structure Aligner.WF (p : Params) (a : Aligner) : Prop where
  buf : a.buf.length = 20 * p.alignW
  position : a.position < 10 * p.alignW

/-- The Generator's widths (R31). -/
structure Generator.WF (p : Params) (g : Generator) : Prop where
  gstate : g.gstate.length = p.genLfsr.nState
  o : g.o.length = p.nOut

/-- The Checker's widths, and `error_count = popcount(errors)` (R32, R147). -/
structure Checker.WF (p : Params) (c : Checker) : Prop where
  cstate : c.cstate.length = p.chkLfsr.nState
  errors : c.errors.length = p.nIn
  errorCount : c.errorCount = Bits.popcount c.errors

/-- A sequencer's registers fit together: the cursor is in the program, `ir` holds the word at the cursor from DECODE
on, an EXECUTE state is that of the word's instruction with its address latched, and END follows an `End`. A sequencer
that has not started is in FETCH at index 0. -/
structure Sequencer.WF {κ : Type} (isa : Isa) (instrOf : κ → Word → Instr) (endInstr : Instr)
    (program : Option (List Word)) (q : Sequencer κ) : Prop where
  idle : program = none → q.fsm = .fetch ∧ q.cursor = 0
  inProgram : ∀ ws, program = some ws → q.cursor < ws.length
  holds : ∀ ws, program = some ws → q.fsm ≠ .fetch → ws[q.cursor]? = some q.ir
  kind : ∀ k, q.fsm = .execute k → decode isa q.ir = .ok (instrOf k q.ir) ∧ q.adrReg = adrField q.ir
  ended : q.fsm = .ended → decode isa q.ir = .ok endInstr

/-- The invariant of a legal machine. -/
structure State.Inv (s : State) : Prop where
  legal : refusalOf s.params = none
  enc : s.enc.WF s.params
  aln : s.aln.WF s.params
  gen : s.gen.WF s.params
  chk : s.chk.WF s.params
  csr : s.csr.WF .csr CsrKind.instr .csrEnd s.params.csrProgram
  sc : s.sc.WF .sc ScKind.instr .scEnd s.params.scProgram

/-- Is the transaction a read by this poll whose test failed (R177, R194)? -/
def failedRead (i : Instr) (e : BusEvent) : Bool :=
  match i, e with
  | .readUntil0 a b, .read adr v => adr == a && !bitIs0 b v
  | .readUntil1 a b, .read adr v => adr == a && !bitIs1 b v
  | .scWait a x, .read adr v => adr == a && !equalsValue x v
  | _, _ => false

/-- Is the transaction the one that completes this instruction (R177, R194)? -/
def completingEvent (i : Instr) (e : BusEvent) : Bool :=
  match i, e with
  | .csrWrite a d, .wrote adr x => adr == a && x == d
  | .scWrite a d, .wrote adr x => adr == a && x == d
  | .readUntil0 a b, .read adr v => adr == a && bitIs0 b v
  | .readUntil1 a b, .read adr v => adr == a && bitIs1 b v
  | .scWait a x, .read adr v => adr == a && equalsValue x v
  | _, _ => false

/-- The transactions of completed instructions, in program order: each contributes its failed reads and then the
transaction that completes it (R177, R194). -/
inductive TraceOf : List Instr → List BusEvent → Prop
  | nil : TraceOf [] []
  | cons (i : Instr) (rest : List Instr) (fails : List BusEvent) (last : BusEvent) (more : List BusEvent) :
      fails.all (failedRead i) → completingEvent i last → TraceOf rest more →
      TraceOf (i :: rest) (fails ++ last :: more)

/-- A bus trace is the one the program prescribes up to the instruction at `cursor`: the completed instructions'
transactions, then failed reads of the instruction in progress, which there are only in EXECUTE (R177, R194). -/
def TraceFollows (program : List Instr) (cursor : Nat) (executing : Bool) (trace : List BusEvent) : Prop :=
  ∃ done pending : List BusEvent, trace = done ++ pending ∧ TraceOf (program.take cursor) done ∧
    (executing = false → pending = []) ∧
    ∀ i, program[cursor]? = some i → pending.all (failedRead i) = true

/-- Is the sequencer in an EXECUTE state? -/
def Sequencer.executing {κ : Type} (q : Sequencer κ) : Bool :=
  match q.fsm with
  | .execute _ => true
  | .fetch | .decode | .ended => false

/-- The instructions of a serial-config program that passed construction, where no word is reserved (R202). -/
def scListing (program : List Word) : List Instr := program.filterMap fun w => (decodeSc w).toOption

/-- Both bus traces are what the programs prescribe. -/
structure State.TracesFollow (s : State) : Prop where
  csr : TraceFollows ((s.params.csrProgram.getD []).map decodeCsr) s.csr.cursor s.csr.executing s.csrTrace
  sc : TraceFollows (scListing (s.params.scProgram.getD [])) s.sc.cursor s.sc.executing s.scTrace

/-! ### Vocabulary of the statements -/

/-- The numeric arguments of an instruction. -/
def argumentsOf : Instr → List Nat
  | .csrEnd | .scEnd => []
  | .csrWrite a d | .scWrite a d => [a.toNat, d.toNat]
  | .readUntil0 a b | .readUntil1 a b => [a.toNat, b.toNat]
  | .scWait a v => [a.toNat, v.toNat]

/-- The transaction the bus outputs and inputs of a tick complete: `W(adr, dat_w)` or `R(adr, dat_r)` (R55). -/
def busEvent (out : BusOut) (inp : BusIn) : BusEvent :=
  if out.we then .wrote out.adr out.datW else .read out.adr inp.datR

/-- One instant with an edge for the domain and no reset, on which the CSR target acknowledges with `v`. -/
def ackInstant (d : Domain) (x : Instant) (v : BusData) : Instant :=
  { x with edges := d :: x.edges, rst := x.rst.filter (fun e => e != d), csrBus := { ack := true, datR := v } }

/-- The same, on which the serial-config target acknowledges with `v`. -/
def scAckInstant (d : Domain) (x : Instant) (v : BusData) : Instant :=
  { x with edges := d :: x.edges, rst := x.rst.filter (fun e => e != d), scBus := { ack := true, datR := v } }

/-- A disparity bit as a number: -1 or +1 (R13). -/
def signOf (rd : Bool) : Int := if rd then 1 else -1

/-- The ones minus the zeros of a codeword. -/
def imbalance (c : Codeword) : Int := 2 * (popcount c : Int) - 10

/-- The symbols the Encoder can represent: every data byte, and the control bytes with `d[4:0] = 28` (R8). -/
def representable (sym : Symbol) : Bool := !sym.isControl || sym.data.extractLsb' 0 5 == 28#5

/-- The comma constants (95_test_vectors.md section 1.1). -/
def commaConstants : List Codeword :=
  [0b0011111001#10, 0b1100000110#10, 0b0011111010#10, 0b1100000101#10, 0b0011111000#10, 0b1100000111#10]

/-- The Encoder ticked over a list of inputs. -/
def Encoder.ticks (inputs : List (List Symbol)) (e : Encoder) : Encoder := inputs.foldl (fun q x => q.tick x) e

/-- Is there a match at offset `j` of a bit stream? -/
def CommaAt (comma : Codeword) (stream : Bits) (j : Nat) : Prop :=
  ∀ k, k < 10 → (stream.drop j)[k]? = some (comma.getLsbD k)

/-- The Word Aligner ticked over a list of input words. -/
def Aligner.ticks (w : Nat) (comma : Codeword) (inputs : List Bits) (a : Aligner) : Aligner :=
  inputs.foldl (fun q x => q.tick w comma x) a

/-- The bits of a tick, newest first, in front of the register before it: bit 0 is the last bit in time (R136). The
recurrence holds at bit `k` of such a history. -/
def Follows (l : Lfsr) (history : Bits) (k : Nat) : Prop :=
  Bits.bit history k = (Bits.bit history (k + 1 + l.tap1) ^^ Bits.bit history (k + 1 + l.tap2))

/-- The Checker ticked over a list of received words. -/
def Checker.ticks (l : Lfsr) (nIn : Nat) (words : List Bits) (c : Checker) : Checker :=
  words.foldl (fun q x => q.tick l nIn x) c

/-- The Generator's output words of its first `n` ticks, in order. -/
def Generator.words (l : Lfsr) (nOut : Nat) : Nat → Generator → List Bits
  | 0, _ => []
  | n + 1, g => (g.tick l nOut).o :: Generator.words l nOut n (g.tick l nOut)

/-- A word with its bit `p` inverted. -/
def flipBit (v : Bits) (p : Nat) : Bits := v.set p (!Bits.bit v p)

end Sys2Proof.Machine
end

