-- ==== Sys2Proof/Certificates/Slice0/Obligations.lean ====
section
/-! DEFINITION. The statements for the provers. Each docstring names the rule or section of spec/ it formalises; where
a clause rests on a choice of the model or a decision of the spec, it says so. -/

open Sys2Proof Sys2Proof.Machine

/-! ### Encodings and programs -/

/-- Every worked word of 30_encoding.md section 5 and of 95_test_vectors.md section 5.1 decodes to the instruction it
stands for. The serial-config words rest on the spec's decision D33, the words with ones in ignored bits on D32
(log 17). -/
def Obligations.WorkedWordsDecode : Prop :=
  decodeCsr 0x463E#16 = .csrWrite 6#6 0x3E#8 ∧ decodeCsr 0x4510#16 = .csrWrite 5#6 0x10#8 ∧
  decodeCsr 0x8403#16 = .readUntil0 4#6 3#3 ∧ decodeCsr 0x4176#16 = .csrWrite 1#6 0x76#8 ∧
  decodeCsr 0xC107#16 = .readUntil1 1#6 7#3 ∧ decodeCsr 0x8C00#16 = .readUntil0 12#6 0#3 ∧
  decodeCsr 0x4324#16 = .csrWrite 3#6 0x24#8 ∧ decodeCsr 0x0000#16 = .csrEnd ∧
  decodeCsr 0x3FFF#16 = .csrEnd ∧ decodeCsr 0x80FB#16 = .readUntil0 0#6 3#3 ∧
  decodeCsr 0x7FFF#16 = .csrWrite 63#6 0xFF#8 ∧ decodeCsr 0x4000#16 = .csrWrite 0#6 0x00#8 ∧
  decodeCsr 0xBF07#16 = .readUntil0 63#6 7#3 ∧ decodeCsr 0xC000#16 = .readUntil1 0#6 0#3 ∧
  decodeSc 0x0000#16 = .ok .scEnd ∧ decodeSc 0x4040#16 = .ok (.scWrite 0#6 0x40#8) ∧
  decodeSc 0x8201#16 = .ok (.scWait 2#6 0x01#8) ∧ decodeSc 0xBFFF#16 = .ok (.scWait 63#6 0xFF#8) ∧
  decodeSc 0xC000#16 = .error .reservedTag

/-- Decoding the word of any instruction, in its own ISA, gives the instruction back with every operand, and the word
satisfies the optional check on ignored bits (30_encoding.md sections 2 to 5; the serial-config encoding is the spec's
decision D33, the ignored bits D32, log 17). -/
def Obligations.DecodeOfEncode : Prop :=
  ∀ i : Instr, decode i.isa (encode i) = .ok i ∧ Program.ignoredBitsZero i.isa [encode i] = true

/-- A word whose ignored bits are zero is the word of the instruction it decodes to, so no two such words mean the same
(30_encoding.md sections 2 to 5; the spec's decisions D32 and D33, log 17). -/
def Obligations.EncodeOfDecode : Prop :=
  ∀ (isa : Isa) (w : Word) (i : Instr), decode isa w = .ok i → Program.ignoredBitsZero isa [w] = true → encode i = w

/-- Whatever the ignored bits hold, the instruction is the same: bits [13:0] of an `End`, bits [7:3] of a CSR poll
(30_encoding.md sections 2 and 3; the spec's decisions D32 and D33, log 17). -/
def Obligations.IgnoredBitsDoNotMatter : Prop :=
  (∀ (isa : Isa) (w v : Word), opField w = 0#2 → opField v = 0#2 → decode isa w = decode isa v) ∧
  (∀ (w v : Word), (opField w = 2#2 ∨ opField w = 3#2) → w &&& 0xFF07#16 = v &&& 0xFF07#16 → decodeCsr w = decodeCsr v)

/-- The CSR decoder refuses no word, the serial-config decoder exactly the words of tag 11, and each gives instructions
of its own ISA (30_encoding.md sections 2, 3 and 5). That tag 11 of the serial-config word is reserved is the spec's own
encoding, its decision D33 (log 17). -/
def Obligations.OnlyReservedTagIsRefused : Prop :=
  (∀ w : Word, (decodeCsr w).isa = .csr) ∧
  (∀ w : Word, decodeSc w = .error .reservedTag ↔ opField w = 3#2) ∧
  (∀ (w : Word) (i : Instr), decodeSc w = .ok i → i.isa = .sc)

/-- The assembler never truncates: a word it gives decodes to an instruction with exactly the arguments written, and a
known form with an argument out of range is refused (30_encoding.md section 4; the spec's decisions D33 to D35, log 17). -/
def Obligations.AssemblerNeverTruncates : Prop :=
  (∀ (isa : Isa) (st : Stmt) (w : Word), assemble isa st = .ok w →
    ∃ i, decode isa w = .ok i ∧ argumentsOf i = st.args) ∧
  (∀ (isa : Isa) (st : Stmt) (i : Instr), stmtInstr isa st = some i → st.wf isa = false →
    assemble isa st = .error .outOfRange)

/-- A well-formed listing of instructions assembles to words that pass construction and decode back to the listing
(30_encoding.md section 5, 60_exceptions.md section 2; the serial-config encoding is the spec's decision D33,
log 17). -/
def Obligations.ListingsAssemble : Prop :=
  ∀ (isa : Isa) (listing : List Instr), Listing.wf isa listing = true →
    Program.wf isa (listing.map encode) = true ∧
    (listing.map encode).map (decode isa) = listing.map Except.ok

/-- Program well-formedness, conditions (a) to (d) of 60_exceptions.md section 2, index by index. The reserved
tag of (d) is the spec's decision D33 (log 17). -/
def Obligations.ProgramWellFormedness : Prop :=
  ∀ (isa : Isa) (ws : List Word), Program.wf isa ws = true ↔
    1 ≤ ws.length ∧
    (∀ (k : Nat) (w : Word), ws[k]? = some w → (opField w = 0#2 ↔ k + 1 = ws.length)) ∧
    (isa = .sc → ∀ w ∈ ws, opField w ≠ 3#2)

/-- The template program for a serial-config target is well-formed whatever the target's OPEN parameters and the octets
are (45_sequencer_serial_config.md section 4; the template is the spec's decision D37, log 17 and 18). -/
def Obligations.ScTemplateIsWellFormed : Prop :=
  ∀ (t : ScTarget) (freq : BusData) (octets : List BusData), Listing.wf .sc (scTemplate t freq octets) = true

/-! ### The instructions -/

/-- `End` completes in its DECODE tick: END is next, `cursor` and `ir` stay, `adr_reg` takes `ir[13:8]`, nothing else
of the machine changes (44_sequencer_csr.md sections 1 and 2). The single DECODE tick and the address loaded for an
`End` too are the spec's decisions D26 and D23 (log 17). -/
def Obligations.CsrEndCompletes : Prop :=
  ∀ s : State, s.csr.fsm = .decode →
    exec .csrEnd s = .next { s with csr := { s.csr with fsm := .ended, adrReg := adrField s.csr.ir } }

/-- `Write` completes in an EXECUTE tick with `ack`, whatever `dat_r` is: it advances, the target takes `ir[7:0]` at
`adr_reg`, which is what the bus carries in that tick, and nothing else changes (R161). -/
def Obligations.CsrWriteCompletes : Prop :=
  ∀ (address : BusAddr) (data : BusData) (s : State),
    s.csr.fsm = .execute .write → data = immField s.csr.ir → s.now.csrBus.ack = true →
    exec (.csrWrite address data) s = .next { s with
      csr := { s.csr with fsm := .fetch, cursor := (s.csr.cursor + 1) % 2 ^ cursorWidth s.csrLen }
      csrTrace := s.csrTrace ++ [.wrote s.csr.adrReg (immField s.csr.ir)] } ∧
    s.csrBusOut = { cycStb := true, we := true, adr := s.csr.adrReg, datW := immField s.csr.ir }

/-- `ReadUntil0` with `ack`: the polled bit 0 completes it and it advances; the polled bit 1 leaves every register as
it was. Either way one read at `adr_reg` has completed and nothing else changes (R163). -/
def Obligations.ReadUntil0Polls : Prop :=
  ∀ (address : BusAddr) (bitIndex : BitVec 3) (s : State),
    s.csr.fsm = .execute .readUntil0 → bitIndex = bitField s.csr.ir → s.now.csrBus.ack = true →
    (s.now.csrBus.datR.getLsbD bitIndex.toNat = false →
      exec (.readUntil0 address bitIndex) s = .next { s with
        csr := { s.csr with fsm := .fetch, cursor := (s.csr.cursor + 1) % 2 ^ cursorWidth s.csrLen }
        csrTrace := s.csrTrace ++ [.read s.csr.adrReg s.now.csrBus.datR] }) ∧
    (s.now.csrBus.datR.getLsbD bitIndex.toNat = true →
      exec (.readUntil0 address bitIndex) s = .next { s with
        csrTrace := s.csrTrace ++ [.read s.csr.adrReg s.now.csrBus.datR] }) ∧
    s.csrBusOut.cycStb = true ∧ s.csrBusOut.we = false ∧ s.csrBusOut.adr = s.csr.adrReg

/-- `ReadUntil1` with `ack`: the same with the target polarity 1 (R164). -/
def Obligations.ReadUntil1Polls : Prop :=
  ∀ (address : BusAddr) (bitIndex : BitVec 3) (s : State),
    s.csr.fsm = .execute .readUntil1 → bitIndex = bitField s.csr.ir → s.now.csrBus.ack = true →
    (s.now.csrBus.datR.getLsbD bitIndex.toNat = true →
      exec (.readUntil1 address bitIndex) s = .next { s with
        csr := { s.csr with fsm := .fetch, cursor := (s.csr.cursor + 1) % 2 ^ cursorWidth s.csrLen }
        csrTrace := s.csrTrace ++ [.read s.csr.adrReg s.now.csrBus.datR] }) ∧
    (s.now.csrBus.datR.getLsbD bitIndex.toNat = false →
      exec (.readUntil1 address bitIndex) s = .next { s with
        csrTrace := s.csrTrace ++ [.read s.csr.adrReg s.now.csrBus.datR] }) ∧
    s.csrBusOut.cycStb = true ∧ s.csrBusOut.we = false ∧ s.csrBusOut.adr = s.csr.adrReg

/-- `sc.End` completes in its DECODE tick: END is next, `cursor` and `ir` stay, `adr_reg` takes `ir[13:8]`, nothing else
of the machine changes (45_sequencer_serial_config.md sections 2 and 3). The single DECODE tick and the address loaded
for an `End` too are the spec's decisions D26 and D23 (log 17). -/
def Obligations.ScEndCompletes : Prop :=
  ∀ s : State, s.sc.fsm = .decode →
    exec .scEnd s = .next { s with sc := { s.sc with fsm := .ended, adrReg := adrField s.sc.ir } }

/-- `sc.Write` in EXECUTE: the bus carries the write; with `ack` it advances, without it nothing changes (R187). -/
def Obligations.ScWriteCompletes : Prop :=
  ∀ (address : BusAddr) (data : BusData) (s : State),
    s.sc.fsm = .execute .scWrite → data = immField s.sc.ir →
    s.scBusOut = { cycStb := true, we := true, adr := s.sc.adrReg, datW := immField s.sc.ir } ∧
    (s.now.scBus.ack = true → exec (.scWrite address data) s = .next { s with
      sc := { s.sc with fsm := .fetch, cursor := (s.sc.cursor + 1) % 2 ^ cursorWidth s.scLen }
      scTrace := s.scTrace ++ [.wrote s.sc.adrReg (immField s.sc.ir)] }) ∧
    (s.now.scBus.ack = false → exec (.scWrite address data) s = .next s)

/-- `sc.Wait` in EXECUTE: with `ack` it advances exactly when all eight bits of the read data equal `ir[7:0]`, else it
stays; without `ack` nothing changes (45_sequencer_serial_config.md section 2; the whole-byte comparison is the spec's
decision D36, log 17). -/
def Obligations.ScWaitPolls : Prop :=
  ∀ (address : BusAddr) (expected : BusData) (s : State),
    s.sc.fsm = .execute .wait → expected = immField s.sc.ir →
    (s.now.scBus.ack = true → s.now.scBus.datR = expected → exec (.scWait address expected) s = .next { s with
      sc := { s.sc with fsm := .fetch, cursor := (s.sc.cursor + 1) % 2 ^ cursorWidth s.scLen }
      scTrace := s.scTrace ++ [.read s.sc.adrReg s.now.scBus.datR] }) ∧
    (s.now.scBus.ack = true → s.now.scBus.datR ≠ expected → exec (.scWait address expected) s = .next { s with
      scTrace := s.scTrace ++ [.read s.sc.adrReg s.now.scBus.datR] }) ∧
    (s.now.scBus.ack = false → exec (.scWait address expected) s = .next s) ∧
    s.scBusOut.cycStb = true ∧ s.scBusOut.we = false ∧ s.scBusOut.adr = s.sc.adrReg

/-- DECODE: every instruction that is not an `End` latches its address and goes to its own EXECUTE state; `cursor`,
`ir`, the traces and everything else stay, and the bus carries no request, whatever the instruction
(44_sequencer_csr.md section 1, 45_sequencer_serial_config.md section 2, 10_state.md section 6; one tick and the latched
address are the spec's decisions D26 and D23, log 17). -/
def Obligations.DecodeTickDispatches : Prop :=
  ∀ (a : BusAddr) (d : BusData) (b : BitVec 3) (s : State),
    (s.csr.fsm = .decode →
      exec (.csrWrite a d) s = .next { s with csr := { s.csr with fsm := .execute .write, adrReg := a } } ∧
      exec (.readUntil0 a b) s = .next { s with csr := { s.csr with fsm := .execute .readUntil0, adrReg := a } } ∧
      exec (.readUntil1 a b) s = .next { s with csr := { s.csr with fsm := .execute .readUntil1, adrReg := a } } ∧
      s.csrBusOut.cycStb = false) ∧
    (s.sc.fsm = .decode →
      exec (.scWrite a d) s = .next { s with sc := { s.sc with fsm := .execute .scWrite, adrReg := a } } ∧
      exec (.scWait a d) s = .next { s with sc := { s.sc with fsm := .execute .wait, adrReg := a } } ∧
      s.scBusOut.cycStb = false)

/-- The frame of the CSR instructions: only `fsm`, `cursor`, `adr_reg` and the trace may change; `cursor` only in an
EXECUTE tick with `ack`, where FETCH is next; `adr_reg` only in DECODE; the trace only by one transaction, in an
EXECUTE tick with `ack` (44_sequencer_csr.md sections 1 and 2). -/
def Obligations.CsrInstructionFrame : Prop :=
  ∀ (i : Instr) (s t : State), i.isa = .csr → exec i s = .next t →
    t = { s with csr := t.csr, csrTrace := t.csrTrace } ∧ t.csr.ir = s.csr.ir ∧
    (t.csr.cursor ≠ s.csr.cursor → s.csr.executing = true ∧ s.now.csrBus.ack = true ∧ t.csr.fsm = .fetch) ∧
    (t.csr.adrReg ≠ s.csr.adrReg → s.csr.fsm = .decode) ∧
    (t.csrTrace = s.csrTrace ∨
      s.csr.executing = true ∧ s.now.csrBus.ack = true ∧ ∃ e, t.csrTrace = s.csrTrace ++ [e])

/-- The frame of the serial-config instructions, in the same terms (45_sequencer_serial_config.md sections 2 and 3). -/
def Obligations.ScInstructionFrame : Prop :=
  ∀ (i : Instr) (s t : State), i.isa = .sc → exec i s = .next t →
    t = { s with sc := t.sc, scTrace := t.scTrace } ∧ t.sc.ir = s.sc.ir ∧
    (t.sc.cursor ≠ s.sc.cursor → s.sc.executing = true ∧ s.now.scBus.ack = true ∧ t.sc.fsm = .fetch) ∧
    (t.sc.adrReg ≠ s.sc.adrReg → s.sc.fsm = .decode) ∧
    (t.scTrace = s.scTrace ∨
      s.sc.executing = true ∧ s.now.scBus.ack = true ∧ ∃ e, t.scTrace = s.scTrace ++ [e])

/-! ### The sequencers in a step -/

/-- FETCH: `ir` takes the word at the cursor and DECODE is next; nothing else changes and the bus inputs do not matter.
A step of a legal machine does so in every sequencer in FETCH whose clock has an edge without reset: its program has a
word at the cursor, the step completes, and the cursor, `adr_reg` and the trace stay (44_sequencer_csr.md section 1; one
tick is the spec's decision D26, log 17). -/
def Obligations.FetchTick : Prop :=
  (∀ (ws : List Word) (w : Word) (s : State), s.csr.fsm = .fetch → ws[s.csr.cursor]? = some w →
    s.csrRun ws = .next { s with csr := { s.csr with ir := w, fsm := .decode } }) ∧
  (∀ (ws : List Word) (w : Word) (s : State), s.sc.fsm = .fetch → ws[s.sc.cursor]? = some w →
    s.scRun ws = .next { s with sc := { s.sc with ir := w, fsm := .decode } }) ∧
  (∀ (s : State) (ws : List Word), s.Inv → s.params.csrProgram = some ws →
    s.edge s.params.clocks.csr = true → s.rst s.params.clocks.csr = false → s.csr.fsm = .fetch →
    ∃ (w : Word) (t : State), ws[s.csr.cursor]? = some w ∧ step s = .next t ∧
      t.csr = { s.csr with ir := w, fsm := .decode } ∧ t.csrTrace = s.csrTrace) ∧
  (∀ (s : State) (ws : List Word), s.Inv → s.params.scProgram = some ws →
    s.edge s.params.clocks.sc = true → s.rst s.params.clocks.sc = false → s.sc.fsm = .fetch →
    ∃ (w : Word) (t : State), ws[s.sc.cursor]? = some w ∧ step s = .next t ∧
      t.sc = { s.sc with ir := w, fsm := .decode } ∧ t.scTrace = s.scTrace)

/-- A step runs the decoded instruction: from DECODE on, when the word at the cursor of a running sequencer decodes to
`i`, the step is `exec i`, then the other sequencer's part, the stream agents' ticks and the end of the instant. The
serial-config sequencer's part runs `exec` of its own instruction in the state the CSR part leaves. That `exec` is one
tick of the instruction is the model's choice (log 10), and so is the order in which the parts of one instant are
computed (log 1): the spec steps every agent from one snapshot, which they see alike, as they share no register. -/
def Obligations.StepRunsDecodedInstruction : Prop :=
  (∀ (s : State) (ws : List Word) (w : Word) (i : Instr), s.Inv →
    s.params.csrProgram = some ws → s.edge s.params.clocks.csr = true → s.rst s.params.clocks.csr = false →
    s.csr.fsm ≠ .fetch → ws[s.csr.cursor]? = some w → decode .csr w = .ok i →
    step s = andThen (exec i s) fun s1 => andThen s1.scTick fun s2 => .next s2.tickStreams.endInstant) ∧
  (∀ (s : State) (ws : List Word) (w : Word) (i : Instr), s.Inv →
    s.params.scProgram = some ws → s.edge s.params.clocks.sc = true → s.rst s.params.clocks.sc = false →
    s.sc.fsm ≠ .fetch → ws[s.sc.cursor]? = some w → decode .sc w = .ok i →
    step s = andThen s.csrTick fun s1 => andThen (exec i s1) fun s2 => .next s2.tickStreams.endInstant)

/-- In EXECUTE without `ack` nothing changes and `cyc_stb` stays 1, whatever `dat_r` is, for any number of ticks
(R159). -/
def Obligations.NoAckHolds : Prop :=
  (∀ (i : Instr) (s : State), i.isa = .csr → s.csr.executing = true → s.now.csrBus.ack = false →
    exec i s = .next s ∧ s.csrBusOut.cycStb = true) ∧
  (∀ (i : Instr) (s : State), i.isa = .sc → s.sc.executing = true → s.now.scBus.ack = false →
    exec i s = .next s ∧ s.scBusOut.cycStb = true) ∧
  (∀ (n : Nat) (s : State), s.Inv → n ≤ s.script.length →
    (∀ x ∈ s.script, x.rst.contains s.params.clocks.csr = false ∧ x.csrBus.ack = false) → s.csr.executing = true →
    ∃ t : State, Host.Core.run Sys2Proof.core n s = .next t ∧ t.csr = s.csr ∧ t.csrTrace = s.csrTrace) ∧
  (∀ (n : Nat) (s : State), s.Inv → n ≤ s.script.length →
    (∀ x ∈ s.script, x.rst.contains s.params.clocks.sc = false ∧ x.scBus.ack = false) → s.sc.executing = true →
    ∃ t : State, Host.Core.run Sys2Proof.core n s = .next t ∧ t.sc = s.sc ∧ t.scTrace = s.scTrace)

/-- `END` is terminal: only reset leaves it, and no transaction follows (44_sequencer_csr.md section 1). -/
def Obligations.EndIsTerminal : Prop :=
  (∀ s t : State, step s = .next t → s.csr.fsm = .ended →
    (s.edge s.params.clocks.csr && s.rst s.params.clocks.csr) = false →
    t.csr = s.csr ∧ t.csrTrace = s.csrTrace ∧ t.csrBusOut.cycStb = false) ∧
  (∀ s t : State, step s = .next t → s.sc.fsm = .ended →
    (s.edge s.params.clocks.sc && s.rst s.params.clocks.sc) = false →
    t.sc = s.sc ∧ t.scTrace = s.scTrace ∧ t.scBusOut.cycStb = false)

/-- The cursor moves in no other way than by the advance of a completing instruction, by exactly 1 and without
wrapping, or by reset (10_state.md section 6, 44_sequencer_csr.md sections 1 and 3). -/
def Obligations.CursorMovesOnlyByAdvance : Prop :=
  (∀ s t : State, s.Inv → step s = .next t →
    t.csr.cursor = s.csr.cursor ∨
    (s.edge s.params.clocks.csr = true ∧ s.rst s.params.clocks.csr = true ∧ t.csr.cursor = 0) ∨
    (s.csr.executing = true ∧ s.now.csrBus.ack = true ∧ t.csr.fsm = .fetch ∧
      t.csr.cursor = s.csr.cursor + 1 ∧ t.csr.cursor < s.csrLen)) ∧
  (∀ s t : State, s.Inv → step s = .next t →
    t.sc.cursor = s.sc.cursor ∨
    (s.edge s.params.clocks.sc = true ∧ s.rst s.params.clocks.sc = true ∧ t.sc.cursor = 0) ∨
    (s.sc.executing = true ∧ s.now.scBus.ack = true ∧ t.sc.fsm = .fetch ∧
      t.sc.cursor = s.sc.cursor + 1 ∧ t.sc.cursor < s.scLen))

/-- Sequencers share nothing: what a step leaves in one depends only on its own registers, program, clock, reset and
bus inputs, whatever the rest of the machine holds and whatever the step's number. Of a reset, which leaves `ir`
arbitrary, this is said of every register but `ir` (44_sequencer_csr.md section 4, 10_state.md section 6; the trace is
the model's record, log 12). -/
def Obligations.SequencersShareNothing : Prop :=
  (∀ s u s' u' : State, step s = .next s' → step u = .next u' →
    s.csr = u.csr → s.csrTrace = u.csrTrace → s.params.csrProgram = u.params.csrProgram →
    s.edge s.params.clocks.csr = u.edge u.params.clocks.csr → s.rst s.params.clocks.csr = u.rst u.params.clocks.csr →
    s.now.csrBus = u.now.csrBus →
    s'.csr.fsm = u'.csr.fsm ∧ s'.csr.cursor = u'.csr.cursor ∧ s'.csr.adrReg = u'.csr.adrReg ∧
    s'.csrTrace = u'.csrTrace ∧
    ((s.edge s.params.clocks.csr && s.rst s.params.clocks.csr) = false → s'.csr.ir = u'.csr.ir)) ∧
  (∀ s u s' u' : State, step s = .next s' → step u = .next u' →
    s.sc = u.sc → s.scTrace = u.scTrace → s.params.scProgram = u.params.scProgram →
    s.edge s.params.clocks.sc = u.edge u.params.clocks.sc → s.rst s.params.clocks.sc = u.rst u.params.clocks.sc →
    s.now.scBus = u.now.scBus →
    s'.sc.fsm = u'.sc.fsm ∧ s'.sc.cursor = u'.sc.cursor ∧ s'.sc.adrReg = u'.sc.adrReg ∧
    s'.scTrace = u'.scTrace ∧
    ((s.edge s.params.clocks.sc && s.rst s.params.clocks.sc) = false → s'.sc.ir = u'.sc.ir))

/-- A register that is UNSPECIFIED after reset is not observed before it is written: from FETCH, what a tick leaves
does not depend on `ir`, and the bus carries no request (10_state.md section 6). -/
def Obligations.IrIsWrittenBeforeRead : Prop :=
  (∀ (ws : List Word) (s : State) (w : Word), s.csr.fsm = .fetch →
    s.csrRun ws = State.csrRun ws { s with csr := { s.csr with ir := w } } ∧ s.csrBusOut.cycStb = false) ∧
  (∀ (ws : List Word) (s : State) (w : Word), s.sc.fsm = .fetch →
    s.scRun ws = State.scRun ws { s with sc := { s.sc with ir := w } } ∧ s.scBusOut.cycStb = false)

/-- The request fields are held stable: while `cyc_stb` stays 1 from one step to the next, `adr`, `we` and `dat_w` stay,
in a write and in a read, whose `dat_w` has no value the spec states (20_memory.md section 2; log 11). -/
def Obligations.RequestHeldStable : Prop :=
  (∀ s t : State, step s = .next t → s.csrBusOut.cycStb = true → t.csrBusOut.cycStb = true →
    t.csrBusOut.adr = s.csrBusOut.adr ∧ t.csrBusOut.we = s.csrBusOut.we ∧ t.csrBusOut.datW = s.csrBusOut.datW) ∧
  (∀ s t : State, step s = .next t → s.scBusOut.cycStb = true → t.scBusOut.cycStb = true →
    t.scBusOut.adr = s.scBusOut.adr ∧ t.scBusOut.we = s.scBusOut.we ∧ t.scBusOut.datW = s.scBusOut.datW)

/-- In a tick of a started sequencer without reset, a transaction completes exactly when `cyc_stb` and `ack` are both
1, it is the one the bus carries, and it is the only one (20_memory.md section 2; sampling `dat_r` with `ack` is the
spec's decision D27, the trace the model's record, log 17 and 12). -/
def Obligations.TransactionCompletesOnAck : Prop :=
  (∀ s t : State, step s = .next t → s.params.csrProgram.isSome = true →
    s.edge s.params.clocks.csr = true → s.rst s.params.clocks.csr = false →
    t.csrTrace = if s.csrBusOut.cycStb && s.now.csrBus.ack
      then s.csrTrace ++ [busEvent s.csrBusOut s.now.csrBus] else s.csrTrace) ∧
  (∀ s t : State, step s = .next t → s.params.scProgram.isSome = true →
    s.edge s.params.clocks.sc = true → s.rst s.params.clocks.sc = false →
    t.scTrace = if s.scBusOut.cycStb && s.now.scBus.ack
      then s.scTrace ++ [busEvent s.scBusOut s.now.scBus] else s.scTrace)

/-- A poll reads until the first value that passes: with a target that acknowledges every tick, the values that fail
and the one that passes are read in order, one per tick, and the sequencer is then at the next instruction. So for
`ReadUntil0` and `ReadUntil1`, and for `sc.Wait`, whose test is of the whole byte (44_sequencer_csr.md sections 1 and 5,
45_sequencer_serial_config.md sections 2 and 4; the whole-byte test is the spec's decision D36, log 17; the trace is the
model's record, log 12). -/
def Obligations.PollReadsUntilFirstMatch : Prop :=
  (∀ (s : State) (x : Instant) (polarity : Bool) (fails : List BusData) (last : BusData), s.Inv →
    s.csr.fsm = .execute (if polarity then .readUntil1 else .readUntil0) →
    s.script = (fails ++ [last]).map (ackInstant s.params.clocks.csr x) →
    (∀ v ∈ fails, v.getLsbD (bitField s.csr.ir).toNat ≠ polarity) →
    last.getLsbD (bitField s.csr.ir).toNat = polarity →
    ∃ t : State, Host.Core.run Sys2Proof.core (fails.length + 1) s = .next t ∧
      t.csr = { s.csr with fsm := .fetch, cursor := s.csr.cursor + 1 } ∧
      t.csrTrace = s.csrTrace ++ (fails ++ [last]).map (BusEvent.read s.csr.adrReg)) ∧
  (∀ (s : State) (x : Instant) (fails : List BusData), s.Inv → s.sc.fsm = .execute .wait →
    s.script = (fails ++ [immField s.sc.ir]).map (scAckInstant s.params.clocks.sc x) →
    (∀ v ∈ fails, v ≠ immField s.sc.ir) →
    ∃ t : State, Host.Core.run Sys2Proof.core (fails.length + 1) s = .next t ∧
      t.sc = { s.sc with fsm := .fetch, cursor := s.sc.cursor + 1 } ∧
      t.scTrace = s.scTrace ++ (fails ++ [immField s.sc.ir]).map (BusEvent.read s.sc.adrReg))

/-- The bus trace is the one the program prescribes, kept by every step of a legal machine: each write once, each poll's
reads up to the first that passes, in program order, and nothing after `End` (44_sequencer_csr.md section 5,
45_sequencer_serial_config.md section 4; the trace is the model's record, log 12). -/
def Obligations.TracesFollowKept : Prop :=
  ∀ s t : State, s.Inv → s.TracesFollow → step s = .next t → t.TracesFollow

/-- The bus traces of a machine just reset follow its programs (log 12). -/
def Obligations.TracesFollowAtReset : Prop :=
  ∀ p : Params, (State.resetFor p).TracesFollow

/-! ### The machine -/

/-- The invariant of a legal machine is kept by every step (10_state.md section 9, 60_exceptions.md section 2). -/
def Obligations.InvariantKept : Prop :=
  ∀ s t : State, s.Inv → step s = .next t → t.Inv

/-- A legal configuration just reset satisfies the invariant, and so does `State.reset` (10_state.md section 9). -/
def Obligations.InvariantAtReset : Prop :=
  (∀ p : Params, refusalOf p = none → (State.resetFor p).Inv) ∧ State.reset.Inv

/-- A legal machine never stops: a state that meets the invariant has a next state, whatever the outside world drives
(60_exceptions.md section 1). -/
def Obligations.LegalMachineNeverStops : Prop :=
  ∀ s : State, s.Inv → ∃ t, step s = .next t

/-- A refused configuration has no run: with illegal parameters or an ill-formed program, `step` is a refusal
(60_exceptions.md section 2, 00_scope.md section 3; log 9). -/
def Obligations.RefusedConfigurationHasNoRun : Prop :=
  ∀ s : State, (s.params.legal = false ∨
      (∃ ws, s.params.csrProgram = some ws ∧ Program.wf .csr ws = false) ∨
      (∃ ws, s.params.scProgram = some ws ∧ Program.wf .sc ws = false)) →
    ∃ r, step s = .refused r

/-- The configuration, the program ROMs in it, is never written by a step (R38). -/
def Obligations.ConfigurationNeverChanges : Prop :=
  ∀ s t : State, step s = .next t → t.params = s.params

/-- The reset values the spec gives, for any parameters (10_state.md section 9; they are the spec's decisions D6 and
D20, log 17). -/
def Obligations.ResetValues : Prop :=
  ∀ p : Params,
    (State.resetFor p).enc.rdReg = false ∧
    (State.resetFor p).aln = { buf := List.replicate (20 * p.alignW) false, position := 0, commaFound := false } ∧
    (State.resetFor p).gen = { gstate := Bits.ofNat p.genLfsr.nState p.genSeed, o := List.replicate p.nOut false } ∧
    (State.resetFor p).chk = { cstate := Bits.ofNat p.chkLfsr.nState p.chkSeed,
                               errors := List.replicate p.nIn false, errorCount := 0 } ∧
    (State.resetFor p).csr.fsm = .fetch ∧ (State.resetFor p).csr.cursor = 0 ∧ (State.resetFor p).csr.adrReg = 0#6 ∧
    (State.resetFor p).sc.fsm = .fetch ∧ (State.resetFor p).sc.cursor = 0 ∧ (State.resetFor p).sc.adrReg = 0#6

/-- Reset takes precedence: at an edge of its domain with `rst` asserted, every agent of the domain takes its reset
values whatever it was doing and whatever its inputs are (70_reset_and_hazards.md section 1; decision D8, log 17). -/
def Obligations.ResetOverrides : Prop :=
  ∀ (s t : State) (d : Domain), step s = .next t → s.edge d = true → s.rst d = true →
    (s.params.clocks.enc = d → t.enc.rdReg = false) ∧
    (s.params.clocks.aln = d →
      t.aln = { buf := List.replicate (20 * s.params.alignW) false, position := 0, commaFound := false }) ∧
    (s.params.clocks.gen = d →
      t.gen = { gstate := Bits.ofNat s.params.genLfsr.nState s.params.genSeed,
                o := List.replicate s.params.nOut false }) ∧
    (s.params.clocks.chk = d →
      t.chk = { cstate := Bits.ofNat s.params.chkLfsr.nState s.params.chkSeed,
                errors := List.replicate s.params.nIn false, errorCount := 0 }) ∧
    (s.params.clocks.csr = d → t.csr.fsm = .fetch ∧ t.csr.cursor = 0 ∧ t.csr.adrReg = 0#6) ∧
    (s.params.clocks.sc = d → t.sc.fsm = .fetch ∧ t.sc.cursor = 0 ∧ t.sc.adrReg = 0#6)

/-- An agent whose clock domain has no edge keeps every register (10_state.md section 1; log 1). -/
def Obligations.NoEdgeNoChange : Prop :=
  ∀ s t : State, step s = .next t →
    (s.edge s.params.clocks.enc = false → t.enc = s.enc) ∧
    (s.edge s.params.clocks.aln = false → t.aln = s.aln) ∧
    (s.edge s.params.clocks.gen = false → t.gen = s.gen) ∧
    (s.edge s.params.clocks.chk = false → t.chk = s.chk) ∧
    (s.edge s.params.clocks.csr = false → t.csr = s.csr ∧ t.csrTrace = s.csrTrace) ∧
    (s.edge s.params.clocks.sc = false → t.sc = s.sc ∧ t.scTrace = s.scTrace)

/-- The stream agents step every tick of their domains from the snapshot, whatever the sequencers do
(41_encoder.md section 4, 42_word_aligner.md, 43_prbs.md sections 2 and 3; that none has an enable is the spec's
decision D16, log 17). -/
def Obligations.StreamAgentsStepEveryTick : Prop :=
  ∀ (s t : State) (d : Domain), step s = .next t → s.edge d = true → s.rst d = false →
    (s.params.clocks.enc = d → t.enc = s.enc.tick (lanePorts s.params.nLanes s.now)) ∧
    (s.params.clocks.aln = d →
      t.aln = s.aln.tick s.params.alignW s.params.alignComma (dinPort s.params.alignW s.now)) ∧
    (s.params.clocks.gen = d → t.gen = s.gen.tick s.params.genLfsr s.params.nOut) ∧
    (s.params.clocks.chk = d → t.chk = s.chk.tick s.params.chkLfsr s.params.nIn (iPort s.params.nIn s.now))

/-! ### The Encoder -/

/-- The sixteen control codewords of 41_encoder.md section 1, each with its outgoing disparity, the six comma constants
of 95_test_vectors.md section 1.1 among them. Those of K.28.0, K.28.2, K.28.3, K.28.4 and K.28.6 are the spec's
general-knowledge passage GK3 (log 15, PRESUMED). -/
def Obligations.ControlCodewords : Prop :=
  [0x1C#8, 0x3C#8, 0x5C#8, 0x7C#8, 0x9C#8, 0xBC#8, 0xDC#8, 0xFC#8].map (fun d => encodeSymbol d true false) =
    [(0b0011110100#10, false), (0b0011111001#10, true), (0b0011110101#10, true), (0b0011110011#10, true),
     (0b0011110010#10, false), (0b0011111010#10, true), (0b0011110110#10, true), (0b0011111000#10, false)] ∧
  [0x1C#8, 0x3C#8, 0x5C#8, 0x7C#8, 0x9C#8, 0xBC#8, 0xDC#8, 0xFC#8].map (fun d => encodeSymbol d true true) =
    [(0b1100001011#10, true), (0b1100000110#10, false), (0b1100001010#10, false), (0b1100001100#10, false),
     (0b1100001101#10, true), (0b1100000101#10, false), (0b1100001001#10, false), (0b1100000111#10, true)]

/-- Every control symbol is encoded as K.28.y (41_encoder.md section 2). -/
def Obligations.ControlSymbolsReduce : Prop :=
  ∀ (d : BitVec 8) (rd : Bool), encodeSymbol d true rd = encodeSymbol (d &&& 0xE0#8 ||| 28#8) true rd

/-- The running disparity of any encoded stream, from either start, is in {-1, +1} after every codeword, and it is the
outgoing disparity the Encoder keeps (41_encoder.md section 3; the tables are general knowledge, log 15). -/
def Obligations.RunningDisparityBounded : Prop :=
  ∀ (rd : Bool) (stream : List Symbol) (k : Nat) (lane : Codeword × Bool),
    (encodeLanes rd stream)[k]? = some lane →
    signOf rd + (((encodeLanes rd stream).take (k + 1)).map fun c => imbalance c.1).sum = signOf lane.2

/-- There is a Decoder that gives back every representable symbol from its codeword at both disparities, refuses every
codeword the Encoder never emits (`none` is `invalid = 1`), and whose tracked disparity is the Encoder's outgoing one
(R8). The tracked disparity is the one before the codeword plus the codeword's ones minus its zeros, so it is fixed by
the codeword itself. The codewords rest on the tables of log 15. -/
def Obligations.DecoderRoundTrip : Prop :=
  ∃ (inverse : Codeword → Option Symbol) (track : Codeword → Bool → Bool),
    (∀ (sym : Symbol) (rd : Bool), representable sym = true →
      inverse (encodeSymbol sym.data sym.isControl rd).1 = some sym ∧
      track (encodeSymbol sym.data sym.isControl rd).1 rd = (encodeSymbol sym.data sym.isControl rd).2 ∧
      signOf (track (encodeSymbol sym.data sym.isControl rd).1 rd) =
        signOf rd + imbalance (encodeSymbol sym.data sym.isControl rd).1) ∧
    (∀ c : Codeword, (∀ (sym : Symbol) (rd : Bool), (encodeSymbol sym.data sym.isControl rd).1 ≠ c) → inverse c = none)

/-- Comma freedom: in the transmitted bits of any stream of data symbols, from either disparity, no window at any
offset is a comma constant, nor contains the 7-bit comma sequences (41_encoder.md section 3; the tables are general knowledge, log 15). -/
def Obligations.DataStreamsAreCommaFree : Prop :=
  ∀ (rd : Bool) (bytes : List (BitVec 8)) (k : Nat),
    let line := (encodeLanes rd (bytes.map fun d => { data := d, isControl := false })).flatMap fun c => transmitted c.1
    (line.drop k).take 10 ∉ commaConstants.map transmitted ∧
    (line.drop k).take 7 ≠ [false, false, true, true, true, true, true] ∧
    (line.drop k).take 7 ≠ [true, true, false, false, false, false, false]

/-- The lane chain of one tick, for every latency: there is a chain of disparities from `rd_reg` through the lanes, the
fresh codewords are the encodings along it, `rd_reg` takes its end, and they enter the pipeline, or with
ENC_LATENCY = 1 the output registers (41_encoder.md section 4, 10_state.md section 2). The pipeline of a latency above
1 is the spec's decision D12 (log 17). -/
def Obligations.LaneChain : Prop :=
  ∀ (symbols : List Symbol) (e : Encoder), ∃ r : Nat → Bool,
    r 0 = e.rdReg ∧ (e.tick symbols).rdReg = r symbols.length ∧
    (∀ (k : Nat) (sym : Symbol), symbols[k]? = some sym →
      r (k + 1) = (encodeSymbol sym.data sym.isControl (r k)).2) ∧
    ∃ fresh : EncStage, fresh.out.length = symbols.length ∧ fresh.disp.length = symbols.length ∧
      (∀ (k : Nat) (sym : Symbol), symbols[k]? = some sym →
        fresh.out[k]? = some (encodeSymbol sym.data sym.isControl (r k)).1 ∧ fresh.disp[k]? = some (r (k + 1))) ∧
      (e.pipe = [] → (e.tick symbols).out = fresh.out ∧ (e.tick symbols).disp = fresh.disp ∧
        (e.tick symbols).pipe = []) ∧
      (e.pipe ≠ [] → (e.tick symbols).pipe = fresh :: e.pipe.dropLast)

/-- ENC_LATENCY = L only delays: after `L - 1` further ticks the output registers hold what the L = 1 Encoder's held,
and the disparity chain is unchanged (41_encoder.md section 4; decision D12, log 17). -/
def Obligations.LatencyOnlyDelays : Prop :=
  ∀ (e one : Encoder) (inputs later : List (List Symbol)), inputs ≠ [] → one.pipe = [] → one.rdReg = e.rdReg →
    later.length = e.pipe.length →
    (Encoder.ticks (inputs ++ later) e).out = (Encoder.ticks inputs one).out ∧
    (Encoder.ticks (inputs ++ later) e).disp = (Encoder.ticks inputs one).disp ∧
    (Encoder.ticks inputs e).rdReg = (Encoder.ticks inputs one).rdReg

/-! ### The Word Aligner -/

/-- If the match set has members, the highest offset wins and `commaFound` is 1; if it has none, `position` stays and
`commaFound` is 0. The tie-break is flagged as unverified intent (R122; U4, log 16). -/
def Obligations.HighestMatchWins : Prop :=
  ∀ (w : Nat) (comma : Codeword) (din : Bits) (a : Aligner),
    (∀ j, j < 10 * w → CommaAt comma a.buf j → (∀ k, k < 10 * w → CommaAt comma a.buf k → k ≤ j) →
      (a.tick w comma din).position = j ∧ (a.tick w comma din).commaFound = true) ∧
    ((∀ j, j < 10 * w → ¬ CommaAt comma a.buf j) →
      (a.tick w comma din).position = a.position ∧ (a.tick w comma din).commaFound = false)

/-- `dout` has one tick's width and is the buffer right-shifted by `position`, never reading outside the buffer
(42_word_aligner.md; its combinational form is the spec's decision D17, log 17). -/
def Obligations.DoutIsShiftedBuffer : Prop :=
  ∀ (p : Params) (a : Aligner), a.WF p →
    (a.dout p.alignW).length = 10 * p.alignW ∧
    ∀ k, k < 10 * p.alignW → (a.dout p.alignW)[k]? = a.buf[a.position + k]?

/-- A pattern that begins at bit `p` of the word of tick `t`, the only one that begins in that word, is latched by tick
`t + 3`: `position = p`, `commaFound = 1`, and `dout` begins with what follows in the stream at `p`
(42_word_aligner.md; the buffer and scan range are the spec's decision D14, log 17). -/
def Obligations.CommaLatchedAfterThreeTicks : Prop :=
  ∀ (w : Nat) (comma : Codeword) (a : Aligner) (x y z : Bits) (p : Nat), a.buf.length = 20 * w →
    x.length = 10 * w → y.length = 10 * w → z.length = 10 * w → p < 10 * w →
    (∀ j, j < 10 * w → (CommaAt comma (x ++ y) j ↔ j = p)) →
    (Aligner.ticks w comma [x, y, z] a).position = p ∧ (Aligner.ticks w comma [x, y, z] a).commaFound = true ∧
    (Aligner.ticks w comma [x, y, z] a).dout w = ((y ++ z).drop p).take (10 * w)

/-- Each occurrence of the pattern in the bit stream is matched in exactly one tick: `commaFound` is 1 after the tick
in whose word-wide stretch of the stream a pattern begins, and after no other (42_word_aligner.md; the buffer and the
scan range, which say which tick that is, are the spec's decision D14, log 17). -/
def Obligations.EachCommaMatchedOnce : Prop :=
  ∀ (w : Nat) (comma : Codeword) (a : Aligner) (inputs : List Bits), a.buf.length = 20 * w →
    (∀ x ∈ inputs, x.length = 10 * w) → ∀ n, n < inputs.length →
    ((Aligner.ticks w comma (inputs.take (n + 1)) a).commaFound = true ↔
      ∃ j, j < 10 * w ∧ CommaAt comma (a.buf ++ inputs.flatten) (10 * w * n + j))

/-! ### The PRBS Generator and Checker -/

/-- One tick of the Generator extends the history by N_OUT bits of the recurrence; `o` holds exactly those bits, the
first of them at the top, and `gstate` the newest N_STATE bits (R138). -/
def Obligations.GeneratorExtendsHistory : Prop :=
  ∀ (l : Lfsr) (nOut : Nat) (g : Generator), l.legal = true → g.gstate.length = l.nState →
    ∃ fresh : Bits, fresh.length = nOut ∧ (∀ k, k < nOut → Follows l (fresh ++ g.gstate) k) ∧
      (g.tick l nOut).o = fresh ∧ (g.tick l nOut).gstate = (fresh ++ g.gstate).take l.nState

/-- The all-zero state is a fixed point, and with TAP2 = N_STATE - 1 no nonzero state leads to it
(43_prbs.md section 2). -/
def Obligations.ZeroStateIsIsolated : Prop :=
  ∀ (l : Lfsr) (nOut : Nat) (g : Generator), l.legal = true → g.gstate.length = l.nState →
    (g.gstate = List.replicate l.nState false →
      (g.tick l nOut).gstate = List.replicate l.nState false ∧ (g.tick l nOut).o = List.replicate nOut false) ∧
    (l.tap2 + 1 = l.nState → (g.tick l nOut).gstate = List.replicate l.nState false →
      g.gstate = List.replicate l.nState false)

/-- One tick of the Checker: `errors[j]` is 1 exactly when received bit `j` differs from the bit the recurrence predicts
from the N_STATE bits received before it, and the reference state takes the received bits, not the predicted ones
(R142, R146). -/
def Obligations.CheckerFlagsMismatches : Prop :=
  ∀ (l : Lfsr) (nIn : Nat) (i : Bits) (c : Checker), l.legal = true → c.cstate.length = l.nState → i.length = nIn →
    (c.tick l nIn i).errors.length = nIn ∧
    (∀ j, j < nIn → ((c.tick l nIn i).errors[j]? = some true ↔ ¬ Follows l (i ++ c.cstate) j)) ∧
    (c.tick l nIn i).cstate = (i ++ c.cstate).take l.nState

/-- Re-synchronisation: after words of at least N_STATE bits in all, the reference state is the newest N_STATE received
bits, whatever it was before (43_prbs.md section 3). -/
def Obligations.CheckerResynchronises : Prop :=
  ∀ (l : Lfsr) (nIn : Nat) (c : Checker) (words : List Bits), l.legal = true → c.cstate.length = l.nState →
    (∀ x ∈ words, x.length = nIn) → l.nState ≤ words.length * nIn →
    (Checker.ticks l nIn words c).cstate = (words.reverse.flatten).take l.nState

/-- The Checker's flags depend on the bit stream, not on how it is cut into words: two ticks of `m` and `n` bits flag
and leave what one tick of the joined word does (43_prbs.md sections 3 and 4). -/
def Obligations.FlagsIndependentOfWordWidth : Prop :=
  ∀ (l : Lfsr) (first second : Bits) (c : Checker), l.legal = true → c.cstate.length = l.nState →
    (c.tick l (first.length + second.length) (second ++ first)).errors =
      ((c.tick l first.length first).tick l second.length second).errors ++ (c.tick l first.length first).errors ∧
    (c.tick l (first.length + second.length) (second ++ first)).cstate =
      ((c.tick l first.length first).tick l second.length second).cstate

/-- Zero errors on a clean stream: fed the Generator's words with the same LFSR and width, from any state, the Checker
counts no error in any word that follows at least N_STATE bits of them; and none from the first word on if it starts
in the Generator's state (43_prbs.md section 4). -/
def Obligations.CleanStreamHasNoErrors : Prop :=
  ∀ (l : Lfsr) (n k : Nat) (g : Generator) (c : Checker), l.legal = true →
    g.gstate.length = l.nState → c.cstate.length = l.nState → 1 ≤ k →
    (l.nState ≤ (k - 1) * n ∨ c.cstate = g.gstate) →
    (Checker.ticks l n (Generator.words l n k g) c).errorCount = 0

/-- A single flipped bit in a clean stream raises exactly three flags: at the bit, and TAP1 + 1 and TAP2 + 1 bits later,
which lie at lower indices of the word. Stated for one word as wide as the stretch of stream looked at, which
FlagsIndependentOfWordWidth carries to any cut (43_prbs.md section 4). -/
def Obligations.SingleErrorRaisesThreeFlags : Prop :=
  ∀ (l : Lfsr) (i : Bits) (c : Checker) (p : Nat), l.legal = true → c.cstate.length = l.nState → p < i.length →
    l.tap2 + 1 ≤ p → (∀ j, j < i.length → Follows l (i ++ c.cstate) j) →
    (∀ j, j < i.length → ((c.tick l i.length (flipBit i p)).errors[j]? = some true ↔
      j = p ∨ j + (l.tap1 + 1) = p ∨ j + (l.tap2 + 1) = p)) ∧
    (c.tick l i.length (flipBit i p)).errorCount = 3

/-- `error_count` of a tick is the number of its error flags, not a running sum, and it fits its register whatever the
Checker held before (43_prbs.md section 3; its registered form is the spec's decision D19, log 17). -/
def Obligations.ErrorCountIsPopcount : Prop :=
  ∀ (l : Lfsr) (nIn : Nat) (i : Bits) (c : Checker), i.length = nIn →
    (c.tick l nIn i).errorCount = Bits.popcount (c.tick l nIn i).errors ∧
    (c.tick l nIn i).errorCount ≤ nIn ∧ (c.tick l nIn i).errorCount < 2 ^ clog2 (nIn + 1)
end

