-- ==== Sys2Proof/Laws/Aligner.lean ====
section
/-! SUPPORT. What a match is and what a tick of the Word Aligner does with the match set (R120 to R123). -/

namespace Sys2Proof.Machine

/-- A match at an offset, bit by bit (R120). -/
theorem matchesAt_iff {comma : Codeword} {buf : Bits} {j : Nat} :
    matchesAt comma buf j = true ↔ CommaAt comma buf j := by
  simp only [matchesAt, beq_iff_eq, Bits.field, CommaAt]
  constructor
  · intro h k hk
    have := congrArg (fun v => v[k]?) h
    simpa [List.getElem?_take, hk, Bits.ofNat, BitVec.getLsbD] using this
  · intro h
    apply List.ext_getElem?
    intro k
    by_cases hk : k < 10
    · simpa [List.getElem?_take, hk, Bits.ofNat, BitVec.getLsbD] using h k hk
    · simp [hk, Bits.ofNat]

theorem mem_matchSet {w : Nat} {comma : Codeword} {buf : Bits} {j : Nat} :
    j ∈ matchSet w comma buf ↔ j < 10 * w ∧ CommaAt comma buf j := by
  simp [matchSet, matchesAt_iff]

theorem matchSet_sorted (w : Nat) (comma : Codeword) (buf : Bits) : (matchSet w comma buf).Pairwise (· < ·) :=
  List.Pairwise.filter _ List.pairwise_lt_range

/-- The last member of the match set is the highest match (R122). -/
theorem getLast?_matchSet_eq_some {w : Nat} {comma : Codeword} {buf : Bits} {j : Nat} :
    (matchSet w comma buf).getLast? = some j ↔
      j < 10 * w ∧ CommaAt comma buf j ∧ ∀ k, k < 10 * w → CommaAt comma buf k → k ≤ j := by
  constructor
  · intro h
    obtain ⟨init, hi⟩ := List.getLast?_eq_some_iff.1 h
    have hj := mem_matchSet.1 (hi ▸ List.mem_append_right init (List.mem_singleton_self j) : j ∈ matchSet w comma buf)
    refine ⟨hj.1, hj.2, fun k hk hc => ?_⟩
    have hm := mem_matchSet.2 ⟨hk, hc⟩
    have hs := matchSet_sorted w comma buf
    rw [hi] at hm hs
    rcases List.mem_append.1 hm with hm | hm
    · exact Nat.le_of_lt ((List.pairwise_append.1 hs).2.2 k hm j (by simp))
    · exact Nat.le_of_eq (by simpa using hm)
  · rintro ⟨hj, hc, hmax⟩
    cases h : (matchSet w comma buf).getLast? with
    | none => exact absurd (mem_matchSet.2 ⟨hj, hc⟩) (by simp [List.getLast?_eq_none_iff.1 h])
    | some i =>
      obtain ⟨init, hi⟩ := List.getLast?_eq_some_iff.1 h
      have him := mem_matchSet.1 (hi ▸ List.mem_append_right init (List.mem_singleton_self i) : i ∈ matchSet w comma buf)
      have hs := matchSet_sorted w comma buf
      have hjm := mem_matchSet.2 ⟨hj, hc⟩
      rw [hi] at hjm hs
      have hle := hmax i him.1 him.2
      rcases List.mem_append.1 hjm with hm | hm
      · have := (List.pairwise_append.1 hs).2.2 j hm i (by simp)
        omega
      · simp at hm; rw [hm]

theorem getLast?_matchSet_eq_none {w : Nat} {comma : Codeword} {buf : Bits} :
    (matchSet w comma buf).getLast? = none ↔ ∀ j, j < 10 * w → ¬ CommaAt comma buf j := by
  rw [List.getLast?_eq_none_iff, List.eq_nil_iff_forall_not_mem]
  exact ⟨fun h j hj hc => h j (mem_matchSet.2 ⟨hj, hc⟩), fun h j hm => h j (mem_matchSet.1 hm).1 (mem_matchSet.1 hm).2⟩

/-- Every way a tick of the Word Aligner goes (R122, R123). -/
theorem Aligner.tick_cases (w : Nat) (comma : Codeword) (din : Bits) (a : Aligner) :
    (∃ j, (matchSet w comma a.buf).getLast? = some j ∧
      a.tick w comma din = { buf := a.buf.drop (10 * w) ++ din, position := j, commaFound := true }) ∨
    ((matchSet w comma a.buf).getLast? = none ∧
      a.tick w comma din = { buf := a.buf.drop (10 * w) ++ din, position := a.position, commaFound := false }) := by
  unfold Aligner.tick
  cases h : (matchSet w comma a.buf).getLast? with
  | none => exact .inr ⟨rfl, rfl⟩
  | some j => exact .inl ⟨j, rfl, rfl⟩

@[simp] theorem Aligner.tick_buf (w : Nat) (comma : Codeword) (din : Bits) (a : Aligner) :
    (a.tick w comma din).buf = a.buf.drop (10 * w) ++ din := by
  rcases a.tick_cases w comma din with ⟨j, -, h⟩ | ⟨-, h⟩ <;> rw [h]

/-- A tick keeps the widths and the range of `position`. -/
theorem Aligner.tick_wf {p : Params} {a : Aligner} {din : Bits} (h : a.WF p) (hd : din.length = 10 * p.alignW) :
    (a.tick p.alignW p.alignComma din).WF p := by
  refine ⟨by simp [h.buf, hd]; omega, ?_⟩
  rcases a.tick_cases p.alignW p.alignComma din with ⟨j, hj, ht⟩ | ⟨-, ht⟩ <;> rw [ht]
  · exact (getLast?_matchSet_eq_some.1 hj).1
  · exact h.position

end Sys2Proof.Machine
end

