-- ==== Sys2Proof/Laws/Bus.lean ====
section
/-! SUPPORT. What an EXECUTE tick, the bus outputs and the construction check say, once (R156, R159 to R164, R202). -/

namespace Sys2Proof.Machine

variable {κ : Type}

/-- Every way an EXECUTE tick goes: no `ack` and nothing happens; a transaction and an advance; or a transaction and
another try (R159 to R164). -/
theorem executeTick_cases (len : Nat) (bus : BusIn) (test : BusData → Bool) (event : BusData → BusEvent)
    (q : Sequencer κ) (trace : List BusEvent) :
    (bus.ack = false ∧ executeTick len bus test event q trace = (q, trace)) ∨
    (bus.ack = true ∧ test bus.datR = true ∧
      executeTick len bus test event q trace = (q.advanced len, trace ++ [event bus.datR])) ∨
    (bus.ack = true ∧ test bus.datR = false ∧
      executeTick len bus test event q trace = (q, trace ++ [event bus.datR])) := by
  unfold executeTick
  cases bus.ack <;> cases test bus.datR <;> simp

/-- `cyc_stb` is 1 exactly in the EXECUTE states (R156). -/
theorem busOutOf_cycStb (isa : Isa) (isWrite : κ → Bool) (time : Nat) (q : Sequencer κ) :
    (busOutOf isa isWrite time q).cycStb = q.executing := by
  unfold busOutOf Sequencer.executing
  cases q.fsm <;> rfl

/-- The request of an EXECUTE state: `adr_reg`, the direction of its kind, and in a write the data of `ir` (R156). -/
theorem busOutOf_execute (isa : Isa) (isWrite : κ → Bool) (time : Nat) {q : Sequencer κ} {k : κ}
    (h : q.fsm = .execute k) :
    busOutOf isa isWrite time q =
      { cycStb := true, we := isWrite k, adr := q.adrReg,
        datW := if isWrite k then immField q.ir else Config.freeReadDatW isa q.adrReg q.ir } := by
  simp [busOutOf, h]

/-- The request is held: in an EXECUTE state the outputs do not depend on the step (R53). -/
theorem busOutOf_held (isa : Isa) (isWrite : κ → Bool) {q : Sequencer κ} (h : q.executing = true) (time time' : Nat) :
    busOutOf isa isWrite time q = busOutOf isa isWrite time' q := by
  cases hf : q.fsm with
  | execute k => rw [busOutOf_execute isa isWrite time hf, busOutOf_execute isa isWrite time' hf]
  | fetch | decode | ended => simp [Sequencer.executing, hf] at h

/-- A configuration has a run exactly when its parameters are legal and its constructed programs well-formed (R10,
R202). -/
theorem refusalOf_eq_none {p : Params} :
    refusalOf p = none ↔ p.legal = true ∧ (∀ ws, p.csrProgram = some ws → Program.wf .csr ws = true) ∧
      (∀ ws, p.scProgram = some ws → Program.wf .sc ws = true) := by
  unfold refusalOf
  cases p.legal <;> cases p.csrProgram <;> cases p.scProgram <;> simp
  all_goals split_ifs <;> simp_all

/-- The advance stays inside the counter: CURSOR_W bits count every index of the program (R9, R34). -/
theorem lt_two_pow_cursorWidth {k len : Nat} (h : k < len) : k < 2 ^ cursorWidth len := by
  unfold cursorWidth clog2
  split
  · have : k = 0 := by omega
    subst this; exact Nat.two_pow_pos _
  · refine Nat.lt_of_le_of_lt (by omega : k ≤ len - 1) (Nat.lt_of_lt_of_le Nat.lt_log2_self ?_)
    exact Nat.pow_le_pow_right (by omega) (Nat.le_max_right _ _)

end Sys2Proof.Machine
end

