-- ==== Sys2Proof/Laws/Encoder.lean ====
section
/-! SUPPORT. The lane chain and the pipeline of the Encoder (R103 to R105). -/

namespace Sys2Proof.Machine

theorem length_encodeLanes (rd : Bool) (symbols : List Symbol) : (encodeLanes rd symbols).length = symbols.length := by
  induction symbols generalizing rd with
  | nil => rfl
  | cons sym rest ih => simp [encodeLanes, ih]

theorem lastDisparity_append (rd : Bool) (xs ys : List (Codeword × Bool)) :
    lastDisparity rd (xs ++ ys) = lastDisparity (lastDisparity rd xs) ys := by
  induction xs generalizing rd with
  | nil => rfl
  | cons x rest ih => simp [lastDisparity, ih]

/-- A stream is encoded piece by piece, each piece from the disparity the one before it leaves (R103, R104). -/
theorem encodeLanes_append (rd : Bool) (xs ys : List Symbol) :
    encodeLanes rd (xs ++ ys) = encodeLanes rd xs ++ encodeLanes (lastDisparity rd (encodeLanes rd xs)) ys := by
  induction xs generalizing rd with
  | nil => rfl
  | cons x rest ih => simp [encodeLanes, lastDisparity, ih]

/-- The stage a tick computes from the lanes. -/
def Encoder.fresh (symbols : List Symbol) (e : Encoder) : EncStage :=
  { out := (encodeLanes e.rdReg symbols).map Prod.fst, disp := (encodeLanes e.rdReg symbols).map Prod.snd }

theorem Encoder.fresh_wf {n : Nat} {symbols : List Symbol} (e : Encoder) (h : symbols.length = n) :
    (e.fresh symbols).WF n :=
  ⟨by simp [Encoder.fresh, length_encodeLanes, h], by simp [Encoder.fresh, length_encodeLanes, h]⟩

/-- With ENC_LATENCY = 1 the new stage goes to the output registers (R104). -/
theorem Encoder.tick_of_no_pipe {e : Encoder} (symbols : List Symbol) (h : e.pipe = []) :
    e.tick symbols = { rdReg := lastDisparity e.rdReg (encodeLanes e.rdReg symbols), pipe := [],
                       out := (e.fresh symbols).out, disp := (e.fresh symbols).disp } := by
  simp [Encoder.tick, Encoder.fresh, h]

/-- With in-flight stages the new one enters and the oldest leaves (R105). -/
theorem Encoder.tick_of_pipe {e : Encoder} (symbols : List Symbol) (h : e.pipe ≠ []) :
    e.tick symbols = { rdReg := lastDisparity e.rdReg (encodeLanes e.rdReg symbols),
                       pipe := e.fresh symbols :: e.pipe.dropLast,
                       out := (e.pipe.getLast h).out, disp := (e.pipe.getLast h).disp } := by
  simp [Encoder.tick, Encoder.fresh, List.getLastD_eq_getLast?, List.getLast?_eq_some_getLast h,
    List.dropLast_cons_of_ne_nil h]

/-- A tick keeps the widths. -/
theorem Encoder.tick_wf {p : Params} {e : Encoder} {symbols : List Symbol} (h : e.WF p)
    (hl : symbols.length = p.nLanes) : (e.tick symbols).WF p := by
  have hf := e.fresh_wf hl
  by_cases hp : e.pipe = []
  · rw [Encoder.tick_of_no_pipe symbols hp]
    exact ⟨hf.out, hf.disp, by rw [← h.pipe, hp], by simp⟩
  · rw [Encoder.tick_of_pipe symbols hp]
    have hlast := h.stages _ (List.getLast_mem hp)
    refine ⟨hlast.out, hlast.disp, ?_, ?_⟩
    · have := List.length_pos_iff.2 hp
      simp only [List.length_cons, List.length_dropLast, ← h.pipe]; omega
    · intro st hst
      rcases List.mem_cons.1 hst with rfl | hst
      · exact hf
      · exact h.stages st (List.dropLast_subset _ hst)

theorem length_lanePorts (n : Nat) (x : Instant) : (lanePorts n x).length = n := by simp [lanePorts]

end Sys2Proof.Machine
end

