-- ==== Sys2Proof/Laws/State.lean ====
section
/-! SUPPORT. What each update of the state does to each field, true by definition. -/

namespace Sys2Proof.Machine

variable (s : State)

@[simp] theorem State.csrDispatch_params (a : BusAddr) (n : Fsm CsrKind) : (s.csrDispatch a n).params = s.params := rfl
@[simp] theorem State.csrDispatch_enc (a : BusAddr) (n : Fsm CsrKind) : (s.csrDispatch a n).enc = s.enc := rfl
@[simp] theorem State.csrDispatch_aln (a : BusAddr) (n : Fsm CsrKind) : (s.csrDispatch a n).aln = s.aln := rfl
@[simp] theorem State.csrDispatch_gen (a : BusAddr) (n : Fsm CsrKind) : (s.csrDispatch a n).gen = s.gen := rfl
@[simp] theorem State.csrDispatch_chk (a : BusAddr) (n : Fsm CsrKind) : (s.csrDispatch a n).chk = s.chk := rfl
@[simp] theorem State.csrDispatch_csr (a : BusAddr) (n : Fsm CsrKind) : (s.csrDispatch a n).csr = s.csr.dispatched a n := rfl
@[simp] theorem State.csrDispatch_sc (a : BusAddr) (n : Fsm CsrKind) : (s.csrDispatch a n).sc = s.sc := rfl
@[simp] theorem State.csrDispatch_time (a : BusAddr) (n : Fsm CsrKind) : (s.csrDispatch a n).time = s.time := rfl
@[simp] theorem State.csrDispatch_script (a : BusAddr) (n : Fsm CsrKind) : (s.csrDispatch a n).script = s.script := rfl
@[simp] theorem State.csrDispatch_csrTrace (a : BusAddr) (n : Fsm CsrKind) : (s.csrDispatch a n).csrTrace = s.csrTrace := rfl
@[simp] theorem State.csrDispatch_scTrace (a : BusAddr) (n : Fsm CsrKind) : (s.csrDispatch a n).scTrace = s.scTrace := rfl
@[simp] theorem State.csrDispatch_now (a : BusAddr) (n : Fsm CsrKind) : (s.csrDispatch a n).now = s.now := rfl

@[simp] theorem State.scDispatch_params (a : BusAddr) (n : Fsm ScKind) : (s.scDispatch a n).params = s.params := rfl
@[simp] theorem State.scDispatch_enc (a : BusAddr) (n : Fsm ScKind) : (s.scDispatch a n).enc = s.enc := rfl
@[simp] theorem State.scDispatch_aln (a : BusAddr) (n : Fsm ScKind) : (s.scDispatch a n).aln = s.aln := rfl
@[simp] theorem State.scDispatch_gen (a : BusAddr) (n : Fsm ScKind) : (s.scDispatch a n).gen = s.gen := rfl
@[simp] theorem State.scDispatch_chk (a : BusAddr) (n : Fsm ScKind) : (s.scDispatch a n).chk = s.chk := rfl
@[simp] theorem State.scDispatch_csr (a : BusAddr) (n : Fsm ScKind) : (s.scDispatch a n).csr = s.csr := rfl
@[simp] theorem State.scDispatch_sc (a : BusAddr) (n : Fsm ScKind) : (s.scDispatch a n).sc = s.sc.dispatched a n := rfl
@[simp] theorem State.scDispatch_time (a : BusAddr) (n : Fsm ScKind) : (s.scDispatch a n).time = s.time := rfl
@[simp] theorem State.scDispatch_script (a : BusAddr) (n : Fsm ScKind) : (s.scDispatch a n).script = s.script := rfl
@[simp] theorem State.scDispatch_csrTrace (a : BusAddr) (n : Fsm ScKind) : (s.scDispatch a n).csrTrace = s.csrTrace := rfl
@[simp] theorem State.scDispatch_scTrace (a : BusAddr) (n : Fsm ScKind) : (s.scDispatch a n).scTrace = s.scTrace := rfl
@[simp] theorem State.scDispatch_now (a : BusAddr) (n : Fsm ScKind) : (s.scDispatch a n).now = s.now := rfl

@[simp] theorem State.csrExecute_params (f : BusData → Bool) (e : BusData → BusEvent) : (s.csrExecute f e).params = s.params := rfl
@[simp] theorem State.csrExecute_enc (f : BusData → Bool) (e : BusData → BusEvent) : (s.csrExecute f e).enc = s.enc := rfl
@[simp] theorem State.csrExecute_aln (f : BusData → Bool) (e : BusData → BusEvent) : (s.csrExecute f e).aln = s.aln := rfl
@[simp] theorem State.csrExecute_gen (f : BusData → Bool) (e : BusData → BusEvent) : (s.csrExecute f e).gen = s.gen := rfl
@[simp] theorem State.csrExecute_chk (f : BusData → Bool) (e : BusData → BusEvent) : (s.csrExecute f e).chk = s.chk := rfl
@[simp] theorem State.csrExecute_csr (f : BusData → Bool) (e : BusData → BusEvent) : (s.csrExecute f e).csr = (executeTick s.csrLen s.now.csrBus f e s.csr s.csrTrace).1 := rfl
@[simp] theorem State.csrExecute_sc (f : BusData → Bool) (e : BusData → BusEvent) : (s.csrExecute f e).sc = s.sc := rfl
@[simp] theorem State.csrExecute_time (f : BusData → Bool) (e : BusData → BusEvent) : (s.csrExecute f e).time = s.time := rfl
@[simp] theorem State.csrExecute_script (f : BusData → Bool) (e : BusData → BusEvent) : (s.csrExecute f e).script = s.script := rfl
@[simp] theorem State.csrExecute_csrTrace (f : BusData → Bool) (e : BusData → BusEvent) : (s.csrExecute f e).csrTrace = (executeTick s.csrLen s.now.csrBus f e s.csr s.csrTrace).2 := rfl
@[simp] theorem State.csrExecute_scTrace (f : BusData → Bool) (e : BusData → BusEvent) : (s.csrExecute f e).scTrace = s.scTrace := rfl
@[simp] theorem State.csrExecute_now (f : BusData → Bool) (e : BusData → BusEvent) : (s.csrExecute f e).now = s.now := rfl

@[simp] theorem State.scExecute_params (f : BusData → Bool) (e : BusData → BusEvent) : (s.scExecute f e).params = s.params := rfl
@[simp] theorem State.scExecute_enc (f : BusData → Bool) (e : BusData → BusEvent) : (s.scExecute f e).enc = s.enc := rfl
@[simp] theorem State.scExecute_aln (f : BusData → Bool) (e : BusData → BusEvent) : (s.scExecute f e).aln = s.aln := rfl
@[simp] theorem State.scExecute_gen (f : BusData → Bool) (e : BusData → BusEvent) : (s.scExecute f e).gen = s.gen := rfl
@[simp] theorem State.scExecute_chk (f : BusData → Bool) (e : BusData → BusEvent) : (s.scExecute f e).chk = s.chk := rfl
@[simp] theorem State.scExecute_csr (f : BusData → Bool) (e : BusData → BusEvent) : (s.scExecute f e).csr = s.csr := rfl
@[simp] theorem State.scExecute_sc (f : BusData → Bool) (e : BusData → BusEvent) : (s.scExecute f e).sc = (executeTick s.scLen s.now.scBus f e s.sc s.scTrace).1 := rfl
@[simp] theorem State.scExecute_time (f : BusData → Bool) (e : BusData → BusEvent) : (s.scExecute f e).time = s.time := rfl
@[simp] theorem State.scExecute_script (f : BusData → Bool) (e : BusData → BusEvent) : (s.scExecute f e).script = s.script := rfl
@[simp] theorem State.scExecute_csrTrace (f : BusData → Bool) (e : BusData → BusEvent) : (s.scExecute f e).csrTrace = s.csrTrace := rfl
@[simp] theorem State.scExecute_scTrace (f : BusData → Bool) (e : BusData → BusEvent) : (s.scExecute f e).scTrace = (executeTick s.scLen s.now.scBus f e s.sc s.scTrace).2 := rfl
@[simp] theorem State.scExecute_now (f : BusData → Bool) (e : BusData → BusEvent) : (s.scExecute f e).now = s.now := rfl

@[simp] theorem State.csrReset_params : s.csrReset.params = s.params := rfl
@[simp] theorem State.csrReset_enc : s.csrReset.enc = s.enc := rfl
@[simp] theorem State.csrReset_aln : s.csrReset.aln = s.aln := rfl
@[simp] theorem State.csrReset_gen : s.csrReset.gen = s.gen := rfl
@[simp] theorem State.csrReset_chk : s.csrReset.chk = s.chk := rfl
@[simp] theorem State.csrReset_csr : s.csrReset.csr = Sequencer.resetAt .csr s.time := rfl
@[simp] theorem State.csrReset_sc : s.csrReset.sc = s.sc := rfl
@[simp] theorem State.csrReset_time : s.csrReset.time = s.time := rfl
@[simp] theorem State.csrReset_script : s.csrReset.script = s.script := rfl
@[simp] theorem State.csrReset_csrTrace : s.csrReset.csrTrace = [] := rfl
@[simp] theorem State.csrReset_scTrace : s.csrReset.scTrace = s.scTrace := rfl
@[simp] theorem State.csrReset_now : s.csrReset.now = s.now := rfl

@[simp] theorem State.scReset_params : s.scReset.params = s.params := rfl
@[simp] theorem State.scReset_enc : s.scReset.enc = s.enc := rfl
@[simp] theorem State.scReset_aln : s.scReset.aln = s.aln := rfl
@[simp] theorem State.scReset_gen : s.scReset.gen = s.gen := rfl
@[simp] theorem State.scReset_chk : s.scReset.chk = s.chk := rfl
@[simp] theorem State.scReset_csr : s.scReset.csr = s.csr := rfl
@[simp] theorem State.scReset_sc : s.scReset.sc = Sequencer.resetAt .sc s.time := rfl
@[simp] theorem State.scReset_time : s.scReset.time = s.time := rfl
@[simp] theorem State.scReset_script : s.scReset.script = s.script := rfl
@[simp] theorem State.scReset_csrTrace : s.scReset.csrTrace = s.csrTrace := rfl
@[simp] theorem State.scReset_scTrace : s.scReset.scTrace = [] := rfl
@[simp] theorem State.scReset_now : s.scReset.now = s.now := rfl

@[simp] theorem State.endInstant_params : s.endInstant.params = s.params := rfl
@[simp] theorem State.endInstant_enc : s.endInstant.enc = s.enc := rfl
@[simp] theorem State.endInstant_aln : s.endInstant.aln = s.aln := rfl
@[simp] theorem State.endInstant_gen : s.endInstant.gen = s.gen := rfl
@[simp] theorem State.endInstant_chk : s.endInstant.chk = s.chk := rfl
@[simp] theorem State.endInstant_csr : s.endInstant.csr = s.csr := rfl
@[simp] theorem State.endInstant_sc : s.endInstant.sc = s.sc := rfl
@[simp] theorem State.endInstant_time : s.endInstant.time = s.time + 1 := rfl
@[simp] theorem State.endInstant_script : s.endInstant.script = s.script.tail := rfl
@[simp] theorem State.endInstant_csrTrace : s.endInstant.csrTrace = s.csrTrace := rfl
@[simp] theorem State.endInstant_scTrace : s.endInstant.scTrace = s.scTrace := rfl

@[simp] theorem State.tickStreams_params : s.tickStreams.params = s.params := rfl
@[simp] theorem State.tickStreams_csr : s.tickStreams.csr = s.csr := rfl
@[simp] theorem State.tickStreams_sc : s.tickStreams.sc = s.sc := rfl
@[simp] theorem State.tickStreams_time : s.tickStreams.time = s.time := rfl
@[simp] theorem State.tickStreams_script : s.tickStreams.script = s.script := rfl
@[simp] theorem State.tickStreams_csrTrace : s.tickStreams.csrTrace = s.csrTrace := rfl
@[simp] theorem State.tickStreams_scTrace : s.tickStreams.scTrace = s.scTrace := rfl
@[simp] theorem State.tickStreams_now : s.tickStreams.now = s.now := rfl

/-! The stream agents in `tickStreams`. -/

theorem State.tickStreams_enc : s.tickStreams.enc =
    s.clocked s.params.clocks.enc s.enc (Encoder.resetAt s.params s.time)
      (s.enc.tick (lanePorts s.params.nLanes s.now)) := rfl

theorem State.tickStreams_aln : s.tickStreams.aln =
    s.clocked s.params.clocks.aln s.aln (Aligner.resetFor s.params)
      (s.aln.tick s.params.alignW s.params.alignComma (dinPort s.params.alignW s.now)) := rfl

theorem State.tickStreams_gen : s.tickStreams.gen =
    s.clocked s.params.clocks.gen s.gen (Generator.resetFor s.params)
      (s.gen.tick s.params.genLfsr s.params.nOut) := rfl

theorem State.tickStreams_chk : s.tickStreams.chk =
    s.clocked s.params.clocks.chk s.chk (Checker.resetFor s.params)
      (s.chk.tick s.params.chkLfsr s.params.nIn (iPort s.params.nIn s.now)) := rfl

/-! A sequencer's registers after each tick of the skeleton. -/

variable {κ : Type} (q : Sequencer κ)

@[simp] theorem Sequencer.fetched_fsm (w : Word) : (q.fetched w).fsm = .decode := rfl
@[simp] theorem Sequencer.fetched_cursor (w : Word) : (q.fetched w).cursor = q.cursor := rfl
@[simp] theorem Sequencer.fetched_ir (w : Word) : (q.fetched w).ir = w := rfl
@[simp] theorem Sequencer.fetched_adrReg (w : Word) : (q.fetched w).adrReg = q.adrReg := rfl

@[simp] theorem Sequencer.dispatched_fsm (a : BusAddr) (n : Fsm κ) : (q.dispatched a n).fsm = n := rfl
@[simp] theorem Sequencer.dispatched_cursor (a : BusAddr) (n : Fsm κ) : (q.dispatched a n).cursor = q.cursor := rfl
@[simp] theorem Sequencer.dispatched_ir (a : BusAddr) (n : Fsm κ) : (q.dispatched a n).ir = q.ir := rfl
@[simp] theorem Sequencer.dispatched_adrReg (a : BusAddr) (n : Fsm κ) : (q.dispatched a n).adrReg = a := rfl

@[simp] theorem Sequencer.advanced_fsm (len : Nat) : (q.advanced len).fsm = .fetch := rfl
@[simp] theorem Sequencer.advanced_cursor (len : Nat) : (q.advanced len).cursor = (q.cursor + 1) % 2 ^ cursorWidth len := rfl
@[simp] theorem Sequencer.advanced_ir (len : Nat) : (q.advanced len).ir = q.ir := rfl
@[simp] theorem Sequencer.advanced_adrReg (len : Nat) : (q.advanced len).adrReg = q.adrReg := rfl

end Sys2Proof.Machine
end

