-- ==== Sys2Proof/Laws/Ops.lean ====
section
/-! SUPPORT. What the shared operations and the parts of a step can do, said once (R156 to R166, R186 to R188, R192). -/

namespace Sys2Proof.Machine

theorem andThen_eq_next {o : Out} {f : State → Out} {t : State} :
    andThen o f = .next t ↔ ∃ s, o = .next s ∧ f s = .next t := by
  cases o <;> simp [andThen]

/-! ### Clocking -/

theorem State.clocked_of_no_edge {α : Type} {s : State} {d : Domain} {h r t : α} (he : s.edge d = false) :
    s.clocked d h r t = h := by simp [State.clocked, he]

theorem State.clocked_of_rst {α : Type} {s : State} {d : Domain} {h r t : α} (he : s.edge d = true)
    (hr : s.rst d = true) : s.clocked d h r t = r := by simp [State.clocked, he, hr]

theorem State.clocked_of_tick {α : Type} {s : State} {d : Domain} {h r t : α} (he : s.edge d = true)
    (hr : s.rst d = false) : s.clocked d h r t = t := by simp [State.clocked, he, hr]

/-- Clocking keeps what holds of all three outcomes. -/
theorem State.clocked_ind {α : Type} {P : α → Prop} {s : State} {d : Domain} {h r t : α} (hh : P h) (hr : P r)
    (ht : P t) : P (s.clocked d h r t) := by
  unfold State.clocked; split_ifs <;> assumption

/-! ### What DECODE and EXECUTE do, by the instruction word -/

/-- The state DECODE goes to in a CSR sequencer (R158). -/
def csrNextState (w : Word) : Fsm CsrKind :=
  match (opField w).toNat with
  | 0 => .ended
  | 1 => .execute .write
  | 2 => .execute .readUntil0
  | _ => .execute .readUntil1

/-- The test of an EXECUTE state of a CSR sequencer (R161, R163, R164). -/
def CsrKind.test (k : CsrKind) (w : Word) : BusData → Bool :=
  match k with
  | .write => anyValue
  | .readUntil0 => bitIs0 (bitField w)
  | .readUntil1 => bitIs1 (bitField w)

/-- The transaction an EXECUTE state of a CSR sequencer completes (R177). -/
def CsrKind.event (k : CsrKind) (a : BusAddr) (w : Word) : BusData → BusEvent :=
  match k with
  | .write => fun _ => .wrote a (immField w)
  | .readUntil0 | .readUntil1 => .read a

/-- The test of an EXECUTE state of a serial-config sequencer (R187, R188). -/
def ScKind.test (k : ScKind) (w : Word) : BusData → Bool :=
  match k with
  | .scWrite => anyValue
  | .wait => equalsValue (immField w)

/-- The transaction an EXECUTE state of a serial-config sequencer completes (R194). -/
def ScKind.event (k : ScKind) (a : BusAddr) (w : Word) : BusData → BusEvent :=
  match k with
  | .scWrite => fun _ => .wrote a (immField w)
  | .wait => .read a

theorem State.csrRun_decode {s : State} (ws : List Word) (h : s.csr.fsm = .decode) :
    s.csrRun ws = .next (s.csrDispatch (adrField s.csr.ir) (csrNextState s.csr.ir)) := by
  have hlt : (opField s.csr.ir).toNat < 4 := (opField s.csr.ir).isLt
  simp only [State.csrRun, h, decodeCsr, csrNextState]
  generalize (opField s.csr.ir).toNat = n at hlt
  interval_cases n <;> simp [exec, execCsrEnd, execCsrWrite, execReadUntil0, execReadUntil1, h]

theorem State.csrRun_execute {s : State} {k : CsrKind} (ws : List Word) (h : s.csr.fsm = .execute k) :
    s.csrRun ws = .next (s.csrExecute (k.test s.csr.ir) (k.event s.csr.adrReg s.csr.ir)) := by
  cases k <;>
    simp [State.csrRun, h, CsrKind.instr, exec, execCsrWrite, execReadUntil0, execReadUntil1, CsrKind.test,
      CsrKind.event]

theorem State.scRun_execute {s : State} {k : ScKind} (ws : List Word) (h : s.sc.fsm = .execute k) :
    s.scRun ws = .next (s.scExecute (k.test s.sc.ir) (k.event s.sc.adrReg s.sc.ir)) := by
  cases k <;>
    simp [State.scRun, h, ScKind.instr, exec, execScWrite, execScWait, ScKind.test, ScKind.event]

/-- The state DECODE goes to in a serial-config sequencer, for a word that is not reserved (R186). -/
def scNextState (w : Word) : Fsm ScKind :=
  match (opField w).toNat with
  | 0 => .ended
  | 1 => .execute .scWrite
  | _ => .execute .wait

theorem State.scRun_decode {s : State} (ws : List Word) (h : s.sc.fsm = .decode) :
    s.scRun ws = if (opField s.sc.ir).toNat = 3 then .refused .reservedTag
      else .next (s.scDispatch (adrField s.sc.ir) (scNextState s.sc.ir)) := by
  have hlt : (opField s.sc.ir).toNat < 4 := (opField s.sc.ir).isLt
  simp only [State.scRun, h, decodeSc, scNextState]
  generalize (opField s.sc.ir).toNat = n at hlt
  interval_cases n <;> simp [exec, execScEnd, execScWrite, execScWait, h]

/-! ### What a sequencer's part of a step can do -/

/-- Every way the CSR sequencer's part of a step can answer a next state (R166, R220). -/
theorem State.csrTick_cases {s t : State} (h : s.csrTick = .next t) :
    (t = s ∧ (s.edge s.params.clocks.csr = false ∨ s.rst s.params.clocks.csr = false ∧
      (s.params.csrProgram = none ∨ s.csr.fsm = .ended))) ∨
    (s.edge s.params.clocks.csr = true ∧ s.rst s.params.clocks.csr = true ∧ t = s.csrReset) ∨
    (s.edge s.params.clocks.csr = true ∧ s.rst s.params.clocks.csr = false ∧
      ∃ ws, s.params.csrProgram = some ws ∧
      ((s.csr.fsm = .fetch ∧ ∃ w, ws[s.csr.cursor]? = some w ∧ t = { s with csr := s.csr.fetched w }) ∨
       (s.csr.fsm = .decode ∧ t = s.csrDispatch (adrField s.csr.ir) (csrNextState s.csr.ir)) ∨
       (∃ k, s.csr.fsm = .execute k ∧
         t = s.csrExecute (k.test s.csr.ir) (k.event s.csr.adrReg s.csr.ir)))) := by
  unfold State.csrTick at h
  cases he : s.edge s.params.clocks.csr with
  | false => rw [State.clocked_of_no_edge he] at h; cases h; exact .inl ⟨rfl, .inl rfl⟩
  | true =>
    cases hr : s.rst s.params.clocks.csr with
    | true => rw [State.clocked_of_rst he hr] at h; cases h; exact .inr (.inl ⟨rfl, rfl, rfl⟩)
    | false =>
      rw [State.clocked_of_tick he hr] at h
      cases hp : s.params.csrProgram with
      | none => rw [hp] at h; cases h; exact .inl ⟨rfl, .inr ⟨rfl, .inl rfl⟩⟩
      | some ws =>
        simp only [hp] at h
        cases hf : s.csr.fsm with
        | fetch =>
          simp only [State.csrRun, hf, State.csrFetch] at h
          split at h <;> cases h
          exact .inr (.inr ⟨rfl, rfl, ws, rfl, .inl ⟨rfl, _, ‹_›, rfl⟩⟩)
        | decode =>
          rw [State.csrRun_decode ws hf] at h; cases h
          exact .inr (.inr ⟨rfl, rfl, ws, rfl, .inr (.inl ⟨rfl, rfl⟩)⟩)
        | execute k =>
          rw [State.csrRun_execute ws hf] at h; cases h
          exact .inr (.inr ⟨rfl, rfl, ws, rfl, .inr (.inr ⟨k, rfl, rfl⟩)⟩)
        | ended =>
          simp only [State.csrRun, hf] at h; cases h
          exact .inl ⟨rfl, .inr ⟨rfl, .inr rfl⟩⟩

/-- Every way the serial-config sequencer's part of a step can answer a next state (R192, R220). -/
theorem State.scTick_cases {s t : State} (h : s.scTick = .next t) :
    (t = s ∧ (s.edge s.params.clocks.sc = false ∨ s.rst s.params.clocks.sc = false ∧
      (s.params.scProgram = none ∨ s.sc.fsm = .ended))) ∨
    (s.edge s.params.clocks.sc = true ∧ s.rst s.params.clocks.sc = true ∧ t = s.scReset) ∨
    (s.edge s.params.clocks.sc = true ∧ s.rst s.params.clocks.sc = false ∧
      ∃ ws, s.params.scProgram = some ws ∧
      ((s.sc.fsm = .fetch ∧ ∃ w, ws[s.sc.cursor]? = some w ∧ t = { s with sc := s.sc.fetched w }) ∨
       (s.sc.fsm = .decode ∧ (opField s.sc.ir).toNat ≠ 3 ∧
         t = s.scDispatch (adrField s.sc.ir) (scNextState s.sc.ir)) ∨
       (∃ k, s.sc.fsm = .execute k ∧ t = s.scExecute (k.test s.sc.ir) (k.event s.sc.adrReg s.sc.ir)))) := by
  unfold State.scTick at h
  cases he : s.edge s.params.clocks.sc with
  | false => rw [State.clocked_of_no_edge he] at h; cases h; exact .inl ⟨rfl, .inl rfl⟩
  | true =>
    cases hr : s.rst s.params.clocks.sc with
    | true => rw [State.clocked_of_rst he hr] at h; cases h; exact .inr (.inl ⟨rfl, rfl, rfl⟩)
    | false =>
      rw [State.clocked_of_tick he hr] at h
      cases hp : s.params.scProgram with
      | none => rw [hp] at h; cases h; exact .inl ⟨rfl, .inr ⟨rfl, .inl rfl⟩⟩
      | some ws =>
        simp only [hp] at h
        cases hf : s.sc.fsm with
        | fetch =>
          simp only [State.scRun, hf, State.scFetch] at h
          split at h <;> cases h
          exact .inr (.inr ⟨rfl, rfl, ws, rfl, .inl ⟨rfl, _, ‹_›, rfl⟩⟩)
        | decode =>
          rw [State.scRun_decode ws hf] at h
          split at h <;> cases h
          exact .inr (.inr ⟨rfl, rfl, ws, rfl, .inr (.inl ⟨rfl, ‹_›, rfl⟩)⟩)
        | execute k =>
          rw [State.scRun_execute ws hf] at h; cases h
          exact .inr (.inr ⟨rfl, rfl, ws, rfl, .inr (.inr ⟨k, rfl, rfl⟩)⟩)
        | ended =>
          simp only [State.scRun, hf] at h; cases h
          exact .inl ⟨rfl, .inr ⟨rfl, .inr rfl⟩⟩

/-- The CSR part of a step writes the CSR sequencer and its trace only. -/
theorem State.csrTick_frame {s t : State} (h : s.csrTick = .next t) :
    t = { s with csr := t.csr, csrTrace := t.csrTrace } := by
  rcases State.csrTick_cases h with ⟨rfl, -⟩ | ⟨-, -, rfl⟩ | ⟨-, -, ws, -, ⟨-, w, -, rfl⟩ | ⟨-, rfl⟩ | ⟨k, -, rfl⟩⟩ <;> rfl

/-- The serial-config part of a step writes the serial-config sequencer and its trace only. -/
theorem State.scTick_frame {s t : State} (h : s.scTick = .next t) :
    t = { s with sc := t.sc, scTrace := t.scTrace } := by
  rcases State.scTick_cases h with
    ⟨rfl, -⟩ | ⟨-, -, rfl⟩ | ⟨-, -, ws, -, ⟨-, w, -, rfl⟩ | ⟨-, -, rfl⟩ | ⟨k, -, rfl⟩⟩ <;> rfl

/-- A tick of the running serial-config sequencer does not see the CSR sequencer (R176). -/
theorem State.scRun_with_csr (s : State) (ws : List Word) (q : Sequencer CsrKind) (tr : List BusEvent) :
    State.scRun ws { s with csr := q, csrTrace := tr } =
      andThen (s.scRun ws) fun t => .next { t with csr := q, csrTrace := tr } := by
  cases hf : s.sc.fsm with
  | fetch =>
    simp only [State.scRun, hf, State.scFetch]
    cases ws[s.sc.cursor]? <;> rfl
  | decode =>
    rw [State.scRun_decode ws hf, State.scRun_decode ws (s := { s with csr := q, csrTrace := tr }) hf]
    dsimp only
    split_ifs <;> rfl
  | execute k =>
    rw [State.scRun_execute ws hf, State.scRun_execute ws (s := { s with csr := q, csrTrace := tr }) hf]
    rfl
  | ended => simp only [State.scRun, hf]; rfl

/-- The serial-config part of a step does not see the CSR sequencer: run in a state with other CSR registers, it
answers the same, with those registers (R176). -/
theorem State.scTick_with_csr (s : State) (q : Sequencer CsrKind) (tr : List BusEvent) :
    State.scTick { s with csr := q, csrTrace := tr } =
      andThen s.scTick fun t => .next { t with csr := q, csrTrace := tr } := by
  have he : State.edge { s with csr := q, csrTrace := tr } = s.edge := rfl
  have hr : State.rst { s with csr := q, csrTrace := tr } = s.rst := rfl
  simp only [State.scTick, State.clocked, he, hr]
  split_ifs
  · rfl
  · cases s.params.scProgram with
    | none => rfl
    | some ws => exact State.scRun_with_csr s ws q tr
  · rfl

/-! ### What a step can do -/

/-- A step is the two sequencers' parts, then the stream agents' ticks and the end of the instant. -/
theorem step_cases {s t : State} (h : step s = .next t) :
    refusalOf s.params = none ∧ ∃ s1 s2, s.csrTick = .next s1 ∧ s1.scTick = .next s2 ∧
      t = s2.tickStreams.endInstant := by
  unfold step at h
  split at h
  · cases h
  · rw [State.instant, andThen_eq_next] at h
    obtain ⟨s1, h1, h⟩ := h
    rw [andThen_eq_next] at h
    obtain ⟨s2, h2, h⟩ := h
    exact ⟨‹_›, s1, s2, h1, h2, by cases h; rfl⟩

/-- What a step leaves in the two sequencers is what their parts leave, each computed from the state before the step;
the configuration stays (R12, R176). -/
theorem step_sequencers {s t : State} (h : step s = .next t) :
    t.params = s.params ∧
    (∃ u, s.csrTick = .next u ∧ t.csr = u.csr ∧ t.csrTrace = u.csrTrace) ∧
    (∃ u, s.scTick = .next u ∧ t.sc = u.sc ∧ t.scTrace = u.scTrace) := by
  obtain ⟨-, s1, s2, h1, h2, rfl⟩ := step_cases h
  have f1 := State.csrTick_frame h1
  have f2 := State.scTick_frame h2
  rw [f1, State.scTick_with_csr, andThen_eq_next] at h2
  obtain ⟨u, hu, hu'⟩ := h2
  have hu2 : s2 = { u with csr := s1.csr, csrTrace := s1.csrTrace } := by cases hu'; rfl
  refine ⟨by rw [State.endInstant_params, State.tickStreams_params, f2, f1], ⟨s1, h1, ?_, ?_⟩, ⟨u, hu, ?_, ?_⟩⟩ <;>
    simp [hu2]

/-- What a step leaves in the stream agents is their tick from the state before the step (R12, R225). -/
theorem step_streams {s t : State} (h : step s = .next t) :
    t.enc = s.tickStreams.enc ∧ t.aln = s.tickStreams.aln ∧ t.gen = s.tickStreams.gen ∧
    t.chk = s.tickStreams.chk ∧ t.time = s.time + 1 ∧ t.script = s.script.tail := by
  obtain ⟨-, s1, s2, h1, h2, rfl⟩ := step_cases h
  rw [State.scTick_frame h2, State.csrTick_frame h1]
  exact ⟨rfl, rfl, rfl, rfl, rfl, rfl⟩

theorem step_of_ticks {s s1 s2 : State} (hl : refusalOf s.params = none) (h1 : s.csrTick = .next s1)
    (h2 : s1.scTick = .next s2) : step s = .next s2.tickStreams.endInstant := by
  simp [step, hl, State.instant, h1, h2, andThen]

end Sys2Proof.Machine
end

