-- ==== Sys2Proof/Laws/PerInstr.lean ====
section
/-! SUPPORT. The word of each instruction carries its tag and operands in the fields of R74 and R80, one lemma per
constructor. -/

namespace Sys2Proof.Laws.WordFields

/-- The fields of an instruction's word (R75, R76, R80). -/
def Statement : Instr → Prop
  | .csrEnd => opField (encode .csrEnd) = 0#2
  | .csrWrite a d =>
    opField (encode (.csrWrite a d)) = 1#2 ∧ adrField (encode (.csrWrite a d)) = a ∧
      immField (encode (.csrWrite a d)) = d
  | .readUntil0 a b =>
    opField (encode (.readUntil0 a b)) = 2#2 ∧ adrField (encode (.readUntil0 a b)) = a ∧
      bitField (encode (.readUntil0 a b)) = b
  | .readUntil1 a b =>
    opField (encode (.readUntil1 a b)) = 3#2 ∧ adrField (encode (.readUntil1 a b)) = a ∧
      bitField (encode (.readUntil1 a b)) = b
  | .scEnd => opField (encode .scEnd) = 0#2
  | .scWrite a d =>
    opField (encode (.scWrite a d)) = 1#2 ∧ adrField (encode (.scWrite a d)) = a ∧
      immField (encode (.scWrite a d)) = d
  | .scWait a v =>
    opField (encode (.scWait a v)) = 2#2 ∧ adrField (encode (.scWait a v)) = a ∧
      immField (encode (.scWait a v)) = v

/-- The fields of a word laid out as tag, address and a whole byte. -/
theorem fields_of_byte_form (op : BitVec 2) (a : BusAddr) (d : BusData) :
    opField (op ++ a ++ d) = op ∧ adrField (op ++ a ++ d) = a ∧ immField (op ++ a ++ d) = d := by
  refine ⟨?_, ?_, ?_⟩ <;>
  · apply BitVec.eq_of_getLsbD_eq
    intro k hk
    simp only [opField, adrField, immField, BitVec.getLsbD_extractLsb', BitVec.getLsbD_append]
    rw [decide_eq_true hk, Bool.true_and]
    split_ifs <;> first | omega | (congr 1; omega)

/-- The fields of a word laid out as tag, address, five zeros and a bit index. -/
theorem fields_of_bit_form (op : BitVec 2) (a : BusAddr) (b : BitVec 3) :
    opField (op ++ a ++ 0#5 ++ b) = op ∧ adrField (op ++ a ++ 0#5 ++ b) = a ∧ bitField (op ++ a ++ 0#5 ++ b) = b := by
  refine ⟨?_, ?_, ?_⟩ <;>
  · apply BitVec.eq_of_getLsbD_eq
    intro k hk
    simp only [opField, adrField, bitField, BitVec.getLsbD_extractLsb', BitVec.getLsbD_append]
    rw [decide_eq_true hk, Bool.true_and]
    split_ifs <;> first | omega | (congr 1; omega)

theorem csrEnd : Statement .csrEnd := by unfold Statement; decide
theorem csrWrite (a : BusAddr) (d : BusData) : Statement (.csrWrite a d) := fields_of_byte_form 1#2 a d
theorem readUntil0 (a : BusAddr) (b : BitVec 3) : Statement (.readUntil0 a b) := fields_of_bit_form 2#2 a b
theorem readUntil1 (a : BusAddr) (b : BitVec 3) : Statement (.readUntil1 a b) := fields_of_bit_form 3#2 a b
theorem scEnd : Statement .scEnd := by unfold Statement; decide
theorem scWrite (a : BusAddr) (d : BusData) : Statement (.scWrite a d) := fields_of_byte_form 1#2 a d
theorem scWait (a : BusAddr) (v : BusData) : Statement (.scWait a v) := fields_of_byte_form 2#2 a v

end Sys2Proof.Laws.WordFields
end

