-- ==== Sys2Proof/Laws/Prbs.lean ====
section
/-! SUPPORT. What the LFSR operations compute, in terms of the bit history: the newest bit first, then the register
(R136 to R138, R143). -/

namespace Sys2Proof.Machine

theorem Bits.length_ofNat (w n : Nat) : (Bits.ofNat w n).length = w := by simp [Bits.ofNat]

theorem Bits.length_zext (m : Nat) (v : Bits) (h : v.length ≤ m) : (Bits.zext m v).length = m := by
  simp [Bits.zext]; omega

/-- Zero extension does not change what a bit reads. -/
theorem Bits.bit_zext (m : Nat) (v : Bits) (k : Nat) : Bits.bit (Bits.zext m v) k = Bits.bit v k := by
  simp only [Bits.bit, Bits.zext, List.getD_eq_getElem?_getD]
  by_cases h : k < v.length
  · rw [List.getElem?_append_left h]
  · rw [List.getElem?_append_right (by omega), List.getElem?_eq_none (by omega : v.length ≤ k)]
    by_cases h' : k - v.length < m - v.length
    · rw [List.getElem?_eq_getElem (by simpa using h')]; simp
    · rw [List.getElem?_eq_none (by simpa using h')]

/-- Below the width a shift register reads the newest bits of the history. -/
theorem Bits.bit_take (v : Bits) {k n : Nat} (h : k < n) : Bits.bit (v.take n) k = Bits.bit v k := by
  simp [Bits.bit, h]

theorem Bits.bit_append_right (u v : Bits) (k : Nat) : Bits.bit (u ++ v) (u.length + k) = Bits.bit v k := by
  simp [Bits.bit, List.getElem?_append_right]

theorem shiftIn_eq (e : Bits) (b : Bool) : shiftIn e b = (b :: e).take e.length := by
  simp [shiftIn, List.dropLast_eq_take]

theorem length_shiftIn (e : Bits) (b : Bool) : (shiftIn e b).length = e.length := by simp [shiftIn]

/-- Shifting one more bit into a register that holds the newest bits of a history. -/
theorem shiftIn_take (h : Bits) (b : Bool) (m : Nat) (hm : m ≤ h.length) :
    shiftIn (h.take m) b = (b :: h).take m := by
  rw [shiftIn_eq]
  cases m with
  | zero => simp
  | succ n => simp [List.take_take, Nat.min_eq_left hm]

/-- `n` steps of the recurrence on a register of `m` bits that holds the newest bits of a history put `n` bits in front
of the history, the recurrence holding at each, and leave the newest `m` (R138). -/
theorem generate_history (l : Lfsr) (m : Nat) (h1 : l.tap1 < m) (h2 : l.tap2 < m) :
    ∀ (n : Nat) (h : Bits), m ≤ h.length →
      ∃ fresh : Bits, fresh.length = n ∧ generate l n (h.take m) = (fresh ++ h).take m ∧
        ∀ k, k < n → Follows l (fresh ++ h) k
  | 0, h, _ => ⟨[], rfl, rfl, by simp⟩
  | n + 1, h, hm => by
    obtain ⟨fresh, hl, hg, hf⟩ :=
      generate_history l m h1 h2 n (predict l (h.take m) :: h) (by simpa using Nat.le_succ_of_le hm)
    refine ⟨fresh ++ [predict l (h.take m)], by simp [hl], ?_, fun k hk => ?_⟩
    · rw [generate, shiftIn_take _ _ _ hm, hg]; simp
    · rw [List.append_assoc, List.singleton_append]
      rcases Nat.lt_succ_iff_lt_or_eq.1 hk with hk | rfl
      · exact hf k hk
      · subst hl
        have hb : Bits.bit (fresh ++ predict l (h.take m) :: h) fresh.length = predict l (h.take m) := by
          simp [Bits.bit]
        have hr : ∀ t, Bits.bit (fresh ++ predict l (h.take m) :: h) (fresh.length + 1 + t) = Bits.bit h t := fun t => by
          rw [Nat.add_assoc, Bits.bit_append_right, Nat.add_comm 1 t]; simp [Bits.bit]
        rw [Follows, hb, hr, hr, predict, Bits.bit_take _ h1, Bits.bit_take _ h2]

/-- The error flags of the newest `n` bits of a history: where the recurrence does not hold (R143, R146). -/
def mismatches (l : Lfsr) (history : Bits) (n : Nat) : Bits :=
  (List.range n).map fun k =>
    Bits.bit history k ^^ (Bits.bit history (k + 1 + l.tap1) ^^ Bits.bit history (k + 1 + l.tap2))

theorem mismatches_succ_cons (l : Lfsr) (b : Bool) (history : Bits) (n : Nat) :
    mismatches l (b :: history) (n + 1) =
      (b ^^ (Bits.bit history l.tap1 ^^ Bits.bit history l.tap2)) :: mismatches l history n := by
  have hr : ∀ t, Bits.bit (b :: history) (t + 1) = Bits.bit history t := fun t => by simp [Bits.bit]
  simp only [mismatches, List.range_succ_eq_map, List.map_cons, List.map_map]
  congr 1
  · rw [Nat.zero_add, Nat.add_comm 1, Nat.add_comm 1, hr, hr]; simp [Bits.bit]
  · apply List.map_congr_left
    intro k _
    simp only [Function.comp, Nat.succ_eq_add_one]
    rw [hr, Nat.add_right_comm (k + 1) 1, hr, Nat.add_right_comm (k + 1) 1, hr]

theorem mismatches_append (l : Lfsr) (u history : Bits) (n : Nat) :
    mismatches l (u ++ history) (u.length + n) = mismatches l (u ++ history) u.length ++ mismatches l history n := by
  induction u with
  | nil => simp [mismatches]
  | cons b u ih =>
    have e : (b :: u).length + n = (u.length + n) + 1 := by simp; omega
    rw [List.cons_append, e, mismatches_succ_cons, ih, List.length_cons, mismatches_succ_cons, List.cons_append]

/-- A pass of the Checker over bits in order of time, on a register of `m` bits that holds the newest bits of a history:
the received bits go in front of the history, and the flags are the mismatches there (R143). -/
theorem checkBits_history (l : Lfsr) (m : Nat) (h1 : l.tap1 < m) (h2 : l.tap2 < m) :
    ∀ (bits : List Bool) (h errs : Bits), m ≤ h.length →
      checkBits l bits (h.take m) errs =
        ((bits.reverse ++ h).take m, mismatches l (bits.reverse ++ h) bits.length ++ errs)
  | [], h, errs, _ => by simp [checkBits, mismatches]
  | b :: rest, h, errs, hm => by
    rw [checkBits, shiftIn_take _ _ _ hm,
      checkBits_history l m h1 h2 rest (b :: h) _ (by simpa using Nat.le_succ_of_le hm)]
    have e : (b :: rest).reverse ++ h = rest.reverse ++ (b :: h) := by simp
    have hp : errorFlag b (predict l (h.take m)) :: errs = mismatches l (b :: h) 1 ++ errs := by
      rw [mismatches_succ_cons, errorFlag, predict, Bits.bit_take _ h1, Bits.bit_take _ h2]; simp [mismatches]
    rw [e, hp, ← List.append_assoc]
    have ha := mismatches_append l rest.reverse (b :: h) 1
    rw [List.length_reverse] at ha
    rw [← ha, List.length_cons]

/-- A register read through zero extension: the history continues with zeros that no tap reaches. -/
theorem zext_eq_take (m : Nat) (v : Bits) (h : v.length ≤ m) :
    Bits.zext m v = (Bits.zext m v).take m := by
  rw [List.take_of_length_le (Bits.length_zext m v h).le]

end Sys2Proof.Machine
end

