-- ==== Sys2Proof/Tests/Slice0.lean ====
section
/-! SUPPORT. The model's own tests: every check refuses an ill-formed term, every constructor's word decodes, one step of
each instruction, the spec's worked examples, and for each statement with hypotheses a concrete witness of them.
Expected results come from 95_test_vectors.md and the worked examples of the section files, named at each test. -/

namespace Sys2Proof.Tests

open Sys2Proof Sys2Proof.Machine

/-! ### Well-formedness: each check refuses an ill-formed term (R9, R10, R83, R202) -/

theorem test_params_default_legal : Params.default.legal = true := by decide
theorem test_params_no_lane : Params.legal { Params.default with nLanes := 0 } = false := by decide
theorem test_params_no_latency : Params.legal { Params.default with encLatency := 0 } = false := by decide
theorem test_params_no_align_word : Params.legal { Params.default with alignW := 0 } = false := by decide
theorem test_params_gen_one_bit : Params.legal { Params.default with genLfsr := ⟨1, 0, 0⟩ } = false := by decide
theorem test_params_gen_taps_equal : Params.legal { Params.default with genLfsr := ⟨23, 22, 22⟩ } = false := by decide
theorem test_params_gen_tap_too_high : Params.legal { Params.default with genLfsr := ⟨23, 17, 23⟩ } = false := by decide
theorem test_params_no_output : Params.legal { Params.default with nOut := 0 } = false := by decide
theorem test_params_gen_seed_zero : Params.legal { Params.default with genSeed := 0 } = false := by decide
theorem test_params_gen_seed_too_wide : Params.legal { Params.default with genSeed := 2 ^ 23 } = false := by decide
theorem test_params_chk_taps : Params.legal { Params.default with chkLfsr := ⟨23, 18, 17⟩ } = false := by decide
theorem test_params_no_input : Params.legal { Params.default with nIn := 0 } = false := by decide
theorem test_params_chk_seed_too_wide : Params.legal { Params.default with chkSeed := 2 ^ 23 } = false := by decide

/-- The programs that must be refused (95_test_vectors.md section 7), and that the tag `11` is a CSR opcode. -/
theorem test_programs_refused :
    [[], [0x4101#16], [0x0000#16, 0x0000#16], [0x0000#16, 0x4101#16, 0x0000#16], [0x3FFF#16], [0xC000#16, 0x0000#16]].map
      (Program.wf .csr) = [false, false, false, false, true, true] := by decide
theorem test_reserved_tag_refused : Program.wf .sc [0xC000#16, 0x0000#16] = false := by decide
theorem test_ignored_bits_refused :
    Program.ignoredBitsZero .csr [0x3FFF#16] = false ∧ Program.ignoredBitsZero .csr [0x80FB#16] = false ∧
    Program.ignoredBitsZero .csr [0x8403#16, 0x463E#16, 0x0000#16] = true ∧
    Program.ignoredBitsZero .sc [0xBFFF#16, 0x0000#16] = true := by decide
theorem test_instr_of_other_isa : Instr.wf .csr (.scWrite 0#6 0#8) = false ∧ Instr.wf .sc .csrEnd = false := by decide
theorem test_listings_refused :
    Listing.wf .csr [] = false ∧ Listing.wf .csr [.csrWrite 1#6 1#8] = false ∧
    Listing.wf .csr [.csrEnd, .csrEnd] = false ∧ Listing.wf .csr [.scWrite 1#6 1#8, .csrEnd] = false ∧
    Listing.wf .sc [.scWait 2#6 1#8, .scEnd] = true := by decide

/-- Operands out of range are refused, never truncated (95_test_vectors.md section 7). -/
theorem test_statements_refused :
    Stmt.wf .csr ⟨"Write", [64, 0]⟩ = false ∧ Stmt.wf .csr ⟨"Write", [63, 256]⟩ = false ∧
    Stmt.wf .csr ⟨"ReadUntil0", [4, 8]⟩ = false ∧ Stmt.wf .csr ⟨"ReadUntil1", [64, 0]⟩ = false ∧
    Stmt.wf .sc ⟨"Wait", [2, 256]⟩ = false ∧ Stmt.wf .sc ⟨"ReadUntil0", [4, 3]⟩ = false ∧
    Stmt.wf .csr ⟨"ReadUntil0", [4, 7]⟩ = true := by decide
theorem test_assembler_refuses :
    assemble .csr ⟨"Write", [64, 0]⟩ = .error .outOfRange ∧ assemble .csr ⟨"Wait", [0, 0]⟩ = .error .unknownForm ∧
    assemble .csr ⟨"Write", [6, 62]⟩ = .ok 0x463E#16 ∧ assemble .sc ⟨"Wait", [2, 1]⟩ = .ok 0x8201#16 := by
  refine ⟨?_, ?_, ?_, ?_⟩ <;> rfl

/-! ### Decoding: words written out bit by bit (30_encoding.md sections 2, 3 and 5; 95_test_vectors.md section 5.1) -/

theorem test_decode_csrEnd : decodeCsr 0b00_000000_00000000#16 = .csrEnd := by decide
theorem test_decode_csrWrite : decodeCsr 0b01_000110_00111110#16 = .csrWrite 6#6 0x3E#8 := by decide
theorem test_decode_readUntil0 : decodeCsr 0b10_000100_00000_011#16 = .readUntil0 4#6 3#3 := by decide
theorem test_decode_readUntil1 : decodeCsr 0b11_000001_00000_111#16 = .readUntil1 1#6 7#3 := by decide
theorem test_decode_scEnd : decodeSc 0b00_000000_00000000#16 = .ok .scEnd := by decide
theorem test_decode_scWrite : decodeSc 0b01_000000_01000000#16 = .ok (.scWrite 0#6 0x40#8) := by decide
theorem test_decode_scWait : decodeSc 0b10_000010_00000001#16 = .ok (.scWait 2#6 0x01#8) := by decide
theorem test_decode_reserved : decodeSc 0b11_000000_00000000#16 = .error .reservedTag := by decide
theorem test_decode_extremes :
    decodeCsr 0x7FFF#16 = .csrWrite 63#6 0xFF#8 ∧ decodeCsr 0xBF07#16 = .readUntil0 63#6 7#3 ∧
    decodeCsr 0xC000#16 = .readUntil1 0#6 0#3 ∧ decodeSc 0xBFFF#16 = .ok (.scWait 63#6 0xFF#8) := by decide
theorem test_decode_ignores_bits : decodeCsr 0x3FFF#16 = .csrEnd ∧ decodeCsr 0x80FB#16 = .readUntil0 0#6 3#3 := by decide
theorem test_encode_words :
    [Instr.csrEnd, .csrWrite 6#6 0x3E#8, .readUntil0 4#6 3#3, .readUntil1 1#6 7#3, .scEnd, .scWrite 0#6 0x40#8,
      .scWait 2#6 0x01#8].map encode = [0x0000#16, 0x463E#16, 0x8403#16, 0xC107#16, 0x0000#16, 0x4040#16, 0x8201#16] := by
  decide
theorem test_table_word : decodeTableWord 16 0x463E = some (.csrWrite 6#6 0x3E#8) := by decide

/-- 45_sequencer_serial_config.md sections 1 and 4: the template for a target that takes an octet as one write. -/
theorem test_scTemplate :
    scTemplate { ScTarget.default with cmdStop := 0x02#8, cmdWrites := Vector.ofFn fun k => [(3#6, BitVec.ofNat 8 k.val)] }
      0x40#8 [0xA5#8] =
    [.scWrite 0#6 0x40#8, .scWrite 1#6 0x01#8, .scWait 2#6 0x01#8, .scWrite 3#6 0xA5#8, .scWait 2#6 0x01#8,
      .scWrite 1#6 0x02#8, .scWait 2#6 0x01#8, .scEnd] := by
  simp [scTemplate, ScTarget.cmdWrite, ScTarget.default]

/-! ### A small machine -/

/-- `Write(6, 0x3E)`, `ReadUntil0(4, 3)`, `ReadUntil1(1, 7)`, `End`. -/
def csrDemo : List Word := [0x463E#16, 0x8403#16, 0xC107#16, 0x0000#16]

/-- `sc.Write(0, 0x40)`, `sc.Wait(2, 0x01)`, `sc.End`. -/
def scDemo : List Word := [0x4040#16, 0x8201#16, 0x0000#16]

def demoParams : Params := { Params.default with csrProgram := some csrDemo, scProgram := some scDemo }

/-- An instant with an edge of both domains, the resets given, and the two buses given. -/
def tickAll (rst : List Domain) (csr sc : Bool × BusData) : Instant where
  edges := [0, 1]
  rst := rst
  symbols := [{ data := 0xBC#8, isControl := true }, { data := 0x00#8, isControl := false }]
  din := 5
  i := 3
  csrBus := { ack := csr.1, datR := csr.2 }
  scBus := { ack := sc.1, datR := sc.2 }

/-- The machine with its sequencers as given and one instant to come. -/
def demo (q : Sequencer CsrKind) (r : Sequencer ScKind) (x : Instant) : State :=
  { State.resetFor demoParams with csr := q, sc := r, script := [x] }

def csrFetch0 : Sequencer CsrKind := ⟨.fetch, 0, 0xFFFF#16, 0#6⟩
def csrDecode0 : Sequencer CsrKind := ⟨.decode, 0, 0x463E#16, 0#6⟩
def csrDecode3 : Sequencer CsrKind := ⟨.decode, 3, 0x0000#16, 1#6⟩
def csrWriting : Sequencer CsrKind := ⟨.execute .write, 0, 0x463E#16, 6#6⟩
def csrPolling0 : Sequencer CsrKind := ⟨.execute .readUntil0, 1, 0x8403#16, 4#6⟩
def csrPolling1 : Sequencer CsrKind := ⟨.execute .readUntil1, 2, 0xC107#16, 1#6⟩
def csrEnded : Sequencer CsrKind := ⟨.ended, 3, 0x0000#16, 0#6⟩
def scFetch0 : Sequencer ScKind := ⟨.fetch, 0, 0xFFFF#16, 0#6⟩
def scDecode0 : Sequencer ScKind := ⟨.decode, 0, 0x4040#16, 0#6⟩
def scDecode2 : Sequencer ScKind := ⟨.decode, 2, 0x0000#16, 2#6⟩
def scWriting : Sequencer ScKind := ⟨.execute .scWrite, 0, 0x4040#16, 0#6⟩
def scWaiting : Sequencer ScKind := ⟨.execute .wait, 1, 0x8201#16, 2#6⟩
def scEnded : Sequencer ScKind := ⟨.ended, 2, 0x0000#16, 0#6⟩

/-- What an outcome leaves in the CSR sequencer and its trace. -/
def csrAfter (o : Out) : Option (Sequencer CsrKind × List BusEvent) :=
  match o with
  | .next t => some (t.csr, t.csrTrace)
  | .fault _ | .refused _ => none

/-- What an outcome leaves in the serial-config sequencer and its trace. -/
def scAfter (o : Out) : Option (Sequencer ScKind × List BusEvent) :=
  match o with
  | .next t => some (t.sc, t.scTrace)
  | .fault _ | .refused _ => none

/-! ### The instructions, one tick each -/

theorem test_csrEnd : csrAfter (exec .csrEnd (demo csrDecode3 scFetch0 (tickAll [] (true, 0#8) (false, 0#8)))) =
    some (⟨.ended, 3, 0x0000#16, 0#6⟩, []) := by decide

/-- 95_test_vectors.md V3: an `End` word with ones in its ignored bits still loads `adr_reg`. -/
theorem test_csrEnd_latches_address :
    csrAfter (exec .csrEnd (demo ⟨.decode, 1, 0x3FFF#16, 0#6⟩ scFetch0 (tickAll [] (true, 0#8) (false, 0#8)))) =
      some (⟨.ended, 1, 0x3FFF#16, 63#6⟩, []) := by decide

/-- 95_test_vectors.md V1 and V8: `W(6,0x3E)` completes on `ack`, whatever `dat_r` is. -/
theorem test_csrWrite : csrAfter (step (demo csrWriting scFetch0 (tickAll [] (true, 0xAA#8) (false, 0#8)))) =
    some (⟨.fetch, 1, 0x463E#16, 6#6⟩, [.wrote 6#6 0x3E#8]) := by decide
theorem test_csrWrite_held : csrAfter (step (demo csrWriting scFetch0 (tickAll [] (false, 0xAA#8) (true, 0#8)))) =
    some (csrWriting, []) := by decide

/-- 44_sequencer_csr.md R178: the second read of address 4 returns `0x08` and retries, the third `0x00` and advances. -/
theorem test_readUntil0_retries : csrAfter (step (demo csrPolling0 scFetch0 (tickAll [] (true, 0x08#8) (false, 0#8)))) =
    some (csrPolling0, [.read 4#6 0x08#8]) := by decide
theorem test_readUntil0_advances : csrAfter (step (demo csrPolling0 scFetch0 (tickAll [] (true, 0x00#8) (false, 0#8)))) =
    some (⟨.fetch, 2, 0x8403#16, 4#6⟩, [.read 4#6 0x00#8]) := by decide

/-- 95_test_vectors.md P1: `R(1,0x00)` retries, `R(1,0x80)` advances. -/
theorem test_readUntil1_retries : csrAfter (step (demo csrPolling1 scFetch0 (tickAll [] (true, 0x00#8) (false, 0#8)))) =
    some (csrPolling1, [.read 1#6 0x00#8]) := by decide
theorem test_readUntil1_advances : csrAfter (step (demo csrPolling1 scFetch0 (tickAll [] (true, 0x80#8) (false, 0#8)))) =
    some (⟨.fetch, 3, 0xC107#16, 1#6⟩, [.read 1#6 0x80#8]) := by decide

theorem test_scEnd : scAfter (exec .scEnd (demo csrFetch0 scDecode2 (tickAll [] (false, 0#8) (false, 0#8)))) =
    some (⟨.ended, 2, 0x0000#16, 0#6⟩, []) := by decide

/-- 95_test_vectors.md P3: `W(0,0x40)`. -/
theorem test_scWrite : scAfter (step (demo csrFetch0 scWriting (tickAll [] (false, 0#8) (true, 0x99#8)))) =
    some (⟨.fetch, 1, 0x4040#16, 0#6⟩, [.wrote 0#6 0x40#8]) := by decide

/-- 95_test_vectors.md V4: `0x03` is not `0x01` though bit 0 agrees; `0x01` advances. -/
theorem test_scWait_whole_byte : scAfter (step (demo csrFetch0 scWaiting (tickAll [] (false, 0#8) (true, 0x03#8)))) =
    some (scWaiting, [.read 2#6 0x03#8]) := by decide
theorem test_scWait_advances : scAfter (step (demo csrFetch0 scWaiting (tickAll [] (false, 0#8) (true, 0x01#8)))) =
    some (⟨.fetch, 2, 0x8201#16, 2#6⟩, [.read 2#6 0x01#8]) := by decide

theorem test_fetch : csrAfter (step (demo csrFetch0 scFetch0 (tickAll [] (true, 0#8) (true, 0#8)))) =
    some (⟨.decode, 0, 0x463E#16, 0#6⟩, []) := by decide
theorem test_decode_tick : csrAfter (step (demo csrDecode0 scFetch0 (tickAll [] (true, 0#8) (true, 0#8)))) =
    some (csrWriting, []) := by decide

/-- R220: a reset takes a sequencer out of END. -/
theorem test_reset_wins : (csrAfter (step (demo csrEnded scFetch0 (tickAll [0] (true, 0#8) (true, 0#8))))).map
    (fun r => (r.1.fsm, r.1.cursor, r.1.adrReg, r.2)) = some (.fetch, 0, 0#6, []) := by decide

/-- 95_test_vectors.md V6: the request a stalled write holds on the bus. -/
theorem test_bus_of_write : (demo ⟨.execute .write, 0, 0x4101#16, 1#6⟩ scFetch0 (tickAll [] (false, 0#8) (false, 0#8))).csrBusOut =
    { cycStb := true, we := true, adr := 1#6, datW := 0x01#8 } := by decide

/-- A step from reset with a word placed runs it: `ReadUntil0(4, 3)` goes to its EXECUTE state. -/
theorem test_withFetchWord : (csrAfter (step (State.reset.withFetchWord 16 0x8403))).map
    (fun r => (r.1.fsm, r.1.adrReg)) = some (.execute .readUntil0, 4#6) := by decide
theorem test_withFetchWord_end : (csrAfter (step (State.reset.withFetchWord 16 0x0000))).map (fun r => r.1.fsm) =
    some .ended := by decide
theorem test_withScFetchWord : (scAfter (step (State.reset.withScFetchWord 16 0x8201))).map
    (fun r => (r.1.fsm, r.1.adrReg)) = some (.execute .wait, 2#6) := by decide

/-! ### The stream agents -/

/-- 95_test_vectors.md section 2.1: every alternate-code case, D.7, D.x.3 and K.28.7. -/
theorem test_symbols :
    [(0x07#8, false, true), (0x63#8, false, true), (0xF1#8, false, false), (0xF1#8, false, true), (0xEB#8, false, true),
      (0xEB#8, false, false), (0xFC#8, true, false), (0x00#8, true, false)].map
        (fun v => encodeSymbol v.1 v.2.1 v.2.2) =
      [(0b0001110100#10, false), (0b1100010011#10, true), (0b1000110111#10, true), (0b1000110001#10, false),
       (0b1101001000#10, false), (0b1101001110#10, true), (0b0011111000#10, false), (0b0011110100#10, false)] := by
  decide

/-- 95_test_vectors.md section 2.4, ticks 0 and 2 of the lane chain. -/
theorem test_lane_chain :
    Encoder.tick [⟨0xBC#8, true⟩, ⟨0x00#8, false⟩] ⟨false, [], [], []⟩ =
      ⟨true, [], [0b0011111010#10, 0b0110001011#10], [true, true]⟩ ∧
    Encoder.tick [⟨0xFF#8, false⟩, ⟨0xF1#8, false⟩] ⟨true, [], [], []⟩ =
      ⟨false, [], [0b0101001110#10, 0b1000110001#10], [true, false]⟩ := by decide

/-- 95_test_vectors.md section 3.1, ticks 5 and 6: the match at offset 7, and `dout` before the shift takes effect. -/
theorem test_aligner_lock :
    (Aligner.tick 2 0x354#10 (Bits.ofNat 20 0) ⟨Bits.ofNat 40 0x1AA00, 0, false⟩) = ⟨Bits.ofNat 40 0, 7, true⟩ ∧
    Bits.toNat (Aligner.dout 2 ⟨Bits.ofNat 40 0x1AA00, 0, false⟩) = 0x1AA00 := by decide

/-- 95_test_vectors.md section 3.3: of the matches 3 and 13 the highest wins. -/
theorem test_aligner_tie : matchSet 2 0x354#10 (Bits.ofNat 40 0x00006A9AA0) = [3, 13] ∧
    (Aligner.tick 2 0x354#10 (Bits.ofNat 20 0) ⟨Bits.ofNat 40 0x00006A9AA0, 0, false⟩).position = 13 := by decide

/-- 95_test_vectors.md section 4.1: `gstate` and `o` after the second tick. -/
theorem test_generator : (Generator.tick Lfsr.default 16 ⟨Bits.ofNat 23 0x010000, []⟩) =
    ⟨Bits.ofNat 23 0x004200, Bits.ofNat 16 0x4200⟩ := by decide

/-- 95_test_vectors.md section 4.6, word 11 of the flipped-bit stream, and section 4.4 scenario B, word 1. -/
theorem test_checker :
    Checker.tick Lfsr.default 16 (Bits.ofNat 16 0x1104) ⟨Bits.ofNat 23 0x10C220, [], 0⟩ =
      ⟨Bits.ofNat 23 0x201104, Bits.ofNat 16 0x0008, 1⟩ ∧
    Checker.tick Lfsr.default 16 (Bits.ofNat 16 0x4200) ⟨Bits.ofNat 23 0x7F0000, [], 0⟩ =
      ⟨Bits.ofNat 23 0x004200, Bits.ofNat 16 0x7C00, 5⟩ := by decide

/-! ### Witnesses: for each statement with hypotheses, a concrete state and operands that meet all of them -/

theorem witness_EncodeOfDecode :
    (decode .csr 0x8403#16 = .ok (.readUntil0 4#6 3#3) ∧ Program.ignoredBitsZero .csr [0x8403#16] = true) ∧
    (decode .sc 0xBFFF#16 = .ok (.scWait 63#6 0xFF#8) ∧ Program.ignoredBitsZero .sc [0xBFFF#16] = true) := by decide

theorem witness_IgnoredBitsDoNotMatter :
    (opField 0x0000#16 = 0#2 ∧ opField 0x3FFF#16 = 0#2) ∧
    (opField 0x80FB#16 = 2#2 ∧ 0x80FB#16 &&& 0xFF07#16 = 0x8003#16 &&& 0xFF07#16) ∧
    (opField 0xC1FF#16 = 3#2 ∧ 0xC1FF#16 &&& 0xFF07#16 = 0xC107#16 &&& 0xFF07#16) := by decide

theorem witness_OnlyReservedTagIsRefused :
    decodeSc 0xFFFF#16 = .error .reservedTag ∧ opField 0xFFFF#16 = 3#2 ∧ decodeSc 0xBFFF#16 = .ok (.scWait 63#6 0xFF#8) := by
  decide

theorem witness_AssemblerNeverTruncates :
    assemble .csr ⟨"Write", [63, 255]⟩ = .ok 0x7FFF#16 ∧
    (stmtInstr .csr ⟨"Write", [64, 0]⟩ = some (.csrWrite 0#6 0#8) ∧ Stmt.wf .csr ⟨"Write", [64, 0]⟩ = false) := by
  refine ⟨rfl, rfl, rfl⟩

theorem witness_ListingsAssemble :
    Listing.wf .csr [.csrWrite 6#6 0x3E#8, .readUntil0 4#6 3#3, .readUntil1 1#6 7#3, .csrEnd] = true ∧
    Listing.wf .sc [.scWrite 0#6 0x40#8, .scWait 2#6 1#8, .scEnd] = true := by decide

/-- The shortest program, and both clauses of a serial-config one. -/
theorem witness_ProgramWellFormedness : Program.wf .csr [0x0000#16] = true ∧ Program.wf .sc scDemo = true := by decide

/-- An instant on which both buses acknowledge, and one on which neither does. -/
def acked : Instant := tickAll [] (true, 0x00#8) (true, 0x01#8)
def quiet : Instant := tickAll [] (false, 0xFF#8) (false, 0xFF#8)

theorem witness_CsrEndCompletes : (demo csrDecode3 scFetch0 quiet).csr.fsm = .decode := rfl

theorem witness_CsrWriteCompletes : ∃ (data : BusData) (s : State),
    s.csr.fsm = .execute .write ∧ data = immField s.csr.ir ∧ s.now.csrBus.ack = true :=
  ⟨0x3E#8, demo csrWriting scFetch0 acked, rfl, by decide, rfl⟩

theorem witness_ReadUntil0Polls : ∃ s u : State,
    (s.csr.fsm = .execute .readUntil0 ∧ 3#3 = bitField s.csr.ir ∧ s.now.csrBus.ack = true ∧
      s.now.csrBus.datR.getLsbD 3 = false) ∧
    (u.csr.fsm = .execute .readUntil0 ∧ 3#3 = bitField u.csr.ir ∧ u.now.csrBus.ack = true ∧
      u.now.csrBus.datR.getLsbD 3 = true) :=
  ⟨demo csrPolling0 scFetch0 acked, demo csrPolling0 scFetch0 (tickAll [] (true, 0x08#8) (false, 0#8)),
    ⟨rfl, by decide, rfl, by decide⟩, ⟨rfl, by decide, rfl, by decide⟩⟩

/-- The boundary bit index 7. -/
theorem witness_ReadUntil1Polls : ∃ s u : State,
    (s.csr.fsm = .execute .readUntil1 ∧ 7#3 = bitField s.csr.ir ∧ s.now.csrBus.ack = true ∧
      s.now.csrBus.datR.getLsbD 7 = true) ∧
    (u.csr.fsm = .execute .readUntil1 ∧ 7#3 = bitField u.csr.ir ∧ u.now.csrBus.ack = true ∧
      u.now.csrBus.datR.getLsbD 7 = false) :=
  ⟨demo csrPolling1 scFetch0 (tickAll [] (true, 0x80#8) (false, 0#8)), demo csrPolling1 scFetch0 acked,
    ⟨rfl, by decide, rfl, by decide⟩, ⟨rfl, by decide, rfl, by decide⟩⟩

theorem witness_ScEndCompletes : (demo csrFetch0 scDecode2 quiet).sc.fsm = .decode := rfl

theorem witness_ScWriteCompletes : ∃ s u : State,
    (s.sc.fsm = .execute .scWrite ∧ 0x40#8 = immField s.sc.ir ∧ s.now.scBus.ack = true) ∧
    (u.sc.fsm = .execute .scWrite ∧ 0x40#8 = immField u.sc.ir ∧ u.now.scBus.ack = false) :=
  ⟨demo csrFetch0 scWriting acked, demo csrFetch0 scWriting quiet, ⟨rfl, by decide, rfl⟩, ⟨rfl, by decide, rfl⟩⟩

/-- The value expected, a value that agrees only in bit 0, and no `ack`. -/
theorem witness_ScWaitPolls : ∃ s u v : State,
    (s.sc.fsm = .execute .wait ∧ 0x01#8 = immField s.sc.ir ∧ s.now.scBus.ack = true ∧ s.now.scBus.datR = 0x01#8) ∧
    (u.sc.fsm = .execute .wait ∧ 0x01#8 = immField u.sc.ir ∧ u.now.scBus.ack = true ∧ u.now.scBus.datR ≠ 0x01#8) ∧
    (v.sc.fsm = .execute .wait ∧ 0x01#8 = immField v.sc.ir ∧ v.now.scBus.ack = false) :=
  ⟨demo csrFetch0 scWaiting acked, demo csrFetch0 scWaiting (tickAll [] (false, 0#8) (true, 0x03#8)),
    demo csrFetch0 scWaiting quiet, ⟨rfl, by decide, rfl, rfl⟩, ⟨rfl, by decide, rfl, by decide⟩, ⟨rfl, by decide, rfl⟩⟩

theorem witness_DecodeTickDispatches :
    (demo csrDecode0 scDecode0 quiet).csr.fsm = .decode ∧ (demo csrDecode0 scDecode0 quiet).sc.fsm = .decode := ⟨rfl, rfl⟩

/-- A tick that moves the cursor and extends the trace, and one that loads `adr_reg`. -/
theorem witness_CsrInstructionFrame : ∃ (i j : Instr) (s t u v : State),
    (i.isa = .csr ∧ exec i s = .next t ∧ t.csr.cursor ≠ s.csr.cursor ∧ t.csrTrace ≠ s.csrTrace) ∧
    (j.isa = .csr ∧ exec j u = .next v ∧ v.csr.adrReg ≠ u.csr.adrReg) :=
  ⟨.readUntil0 4#6 3#3, .csrWrite 6#6 0x3E#8, demo csrPolling0 scFetch0 acked, _, demo csrDecode0 scFetch0 acked, _,
    ⟨rfl, rfl, by decide, by decide⟩, ⟨rfl, rfl, by decide⟩⟩

theorem witness_ScInstructionFrame : ∃ (i j : Instr) (s t u v : State),
    (i.isa = .sc ∧ exec i s = .next t ∧ t.sc.cursor ≠ s.sc.cursor ∧ t.scTrace ≠ s.scTrace) ∧
    (j.isa = .sc ∧ exec j u = .next v ∧ v.sc.adrReg ≠ u.sc.adrReg) :=
  ⟨.scWait 2#6 1#8, .scWait 2#6 1#8, demo csrFetch0 scWaiting acked, _, demo csrFetch0 scDecode0 acked, _,
    ⟨rfl, rfl, by decide, by decide⟩, ⟨rfl, rfl, by decide⟩⟩

/-! Legal machines for the statements that assume the invariant. -/

theorem csrWf_of {q : Sequencer CsrKind} (hc : q.cursor < csrDemo.length)
    (hi : q.fsm = .fetch ∨ csrDemo[q.cursor]? = some q.ir)
    (hk : ∀ k, q.fsm = .execute k → decode .csr q.ir = .ok (k.instr q.ir) ∧ q.adrReg = adrField q.ir)
    (he : q.fsm = .ended → decode .csr q.ir = .ok .csrEnd) : q.WF .csr CsrKind.instr .csrEnd (some csrDemo) :=
  ⟨by simp, by rintro _ ⟨⟩; exact hc, by rintro _ ⟨⟩ hn; exact hi.resolve_left hn, hk, he⟩

theorem scWf_of {q : Sequencer ScKind} (hc : q.cursor < scDemo.length)
    (hi : q.fsm = .fetch ∨ scDemo[q.cursor]? = some q.ir)
    (hk : ∀ k, q.fsm = .execute k → decode .sc q.ir = .ok (k.instr q.ir) ∧ q.adrReg = adrField q.ir)
    (he : q.fsm = .ended → decode .sc q.ir = .ok .scEnd) : q.WF .sc ScKind.instr .scEnd (some scDemo) :=
  ⟨by simp, by rintro _ ⟨⟩; exact hc, by rintro _ ⟨⟩ hn; exact hi.resolve_left hn, hk, he⟩

theorem demo_inv {q : Sequencer CsrKind} {r : Sequencer ScKind} (x : Instant)
    (hq : q.WF .csr CsrKind.instr .csrEnd (some csrDemo)) (hr : r.WF .sc ScKind.instr .scEnd (some scDemo)) :
    (demo q r x).Inv where
  legal := by rw [show (demo q r x).params = demoParams from rfl]; decide
  enc := ⟨rfl, rfl, rfl, by rintro st ⟨⟩⟩
  aln := ⟨rfl, (by decide : 0 < 20)⟩
  gen := ⟨rfl, rfl⟩
  chk := ⟨rfl, rfl, rfl⟩
  csr := hq
  sc := hr

theorem csrWriting_wf : csrWriting.WF .csr CsrKind.instr .csrEnd (some csrDemo) :=
  csrWf_of (by decide) (by decide) (by rintro k ⟨⟩; decide) (by rintro ⟨⟩)
theorem csrDecode0_wf : csrDecode0.WF .csr CsrKind.instr .csrEnd (some csrDemo) :=
  csrWf_of (by decide) (by decide) (by rintro k ⟨⟩) (by rintro ⟨⟩)
theorem csrPolling0_wf : csrPolling0.WF .csr CsrKind.instr .csrEnd (some csrDemo) :=
  csrWf_of (by decide) (by decide) (by rintro k ⟨⟩; decide) (by rintro ⟨⟩)
theorem csrPolling1_wf : csrPolling1.WF .csr CsrKind.instr .csrEnd (some csrDemo) :=
  csrWf_of (by decide) (by decide) (by rintro k ⟨⟩; decide) (by rintro ⟨⟩)
theorem csrEnded_wf : csrEnded.WF .csr CsrKind.instr .csrEnd (some csrDemo) :=
  csrWf_of (by decide) (by decide) (by rintro k ⟨⟩) (by decide)
theorem scWriting_wf : scWriting.WF .sc ScKind.instr .scEnd (some scDemo) :=
  scWf_of (by decide) (by decide) (by rintro k ⟨⟩; decide) (by rintro ⟨⟩)
theorem scWaiting_wf : scWaiting.WF .sc ScKind.instr .scEnd (some scDemo) :=
  scWf_of (by decide) (by decide) (by rintro k ⟨⟩; decide) (by rintro ⟨⟩)
theorem scDecode0_wf : scDecode0.WF .sc ScKind.instr .scEnd (some scDemo) :=
  scWf_of (by decide) (by decide) (by rintro k ⟨⟩) (by rintro ⟨⟩)

def csrFetch3 : Sequencer CsrKind := ⟨.fetch, 3, 0xC107#16, 1#6⟩
def scFetch2 : Sequencer ScKind := ⟨.fetch, 2, 0x8201#16, 2#6⟩

theorem csrFetch3_wf : csrFetch3.WF .csr CsrKind.instr .csrEnd (some csrDemo) :=
  csrWf_of (by decide) (by decide) (by rintro k ⟨⟩) (by rintro ⟨⟩)
theorem scFetch2_wf : scFetch2.WF .sc ScKind.instr .scEnd (some scDemo) :=
  scWf_of (by decide) (by decide) (by rintro k ⟨⟩) (by rintro ⟨⟩)

/-- FETCH at the last index of each program. -/
theorem witness_FetchTick :
    let s := demo csrFetch3 scFetch2 quiet
    s.Inv ∧
    (s.params.csrProgram = some csrDemo ∧ s.edge s.params.clocks.csr = true ∧ s.rst s.params.clocks.csr = false ∧
      s.csr.fsm = .fetch ∧ csrDemo[s.csr.cursor]? = some 0x0000#16) ∧
    (s.params.scProgram = some scDemo ∧ s.edge s.params.clocks.sc = true ∧ s.rst s.params.clocks.sc = false ∧
      s.sc.fsm = .fetch ∧ scDemo[s.sc.cursor]? = some 0x0000#16) :=
  ⟨demo_inv _ csrFetch3_wf scFetch2_wf, by decide, by decide⟩

/-- DECODE in both sequencers. -/
theorem witness_StepRunsDecodedInstruction :
    let s := demo csrDecode0 scDecode0 quiet
    s.Inv ∧
    (s.params.csrProgram = some csrDemo ∧ s.edge s.params.clocks.csr = true ∧ s.rst s.params.clocks.csr = false ∧
      s.csr.fsm ≠ .fetch ∧ csrDemo[s.csr.cursor]? = some 0x463E#16 ∧
      decode .csr 0x463E#16 = .ok (.csrWrite 6#6 0x3E#8)) ∧
    (s.params.scProgram = some scDemo ∧ s.edge s.params.clocks.sc = true ∧ s.rst s.params.clocks.sc = false ∧
      s.sc.fsm ≠ .fetch ∧ scDemo[s.sc.cursor]? = some 0x4040#16 ∧ decode .sc 0x4040#16 = .ok (.scWrite 0#6 0x40#8)) :=
  ⟨demo_inv _ csrDecode0_wf scDecode0_wf, by decide, by decide⟩

/-- Both sequencers in EXECUTE without `ack`, for one tick of a script of one instant, and for none. -/
theorem witness_NoAckHolds :
    let s := demo csrWriting scWaiting quiet
    s.Inv ∧ 1 ≤ s.script.length ∧
    (s.csr.executing = true ∧ s.now.csrBus.ack = false ∧ Instr.csrEnd.isa = .csr ∧
      ∀ x ∈ s.script, x.rst.contains s.params.clocks.csr = false ∧ x.csrBus.ack = false) ∧
    (s.sc.executing = true ∧ s.now.scBus.ack = false ∧ Instr.scEnd.isa = .sc ∧
      ∀ x ∈ s.script, x.rst.contains s.params.clocks.sc = false ∧ x.scBus.ack = false) :=
  ⟨demo_inv _ csrWriting_wf scWaiting_wf, by decide, by decide, by decide⟩

theorem witness_EndIsTerminal : ∃ s t : State, step s = .next t ∧
    (s.csr.fsm = .ended ∧ (s.edge s.params.clocks.csr && s.rst s.params.clocks.csr) = false) ∧
    (s.sc.fsm = .ended ∧ (s.edge s.params.clocks.sc && s.rst s.params.clocks.sc) = false) :=
  ⟨demo csrEnded scEnded acked, _, rfl, by decide, by decide⟩

/-- A step in which both cursors move: the serial-config one to the last index of its program. -/
theorem witness_CursorMovesOnlyByAdvance : ∃ s t : State, s.Inv ∧ step s = .next t ∧
    t.csr.cursor = s.csr.cursor + 1 ∧ t.sc.cursor = s.sc.cursor + 1 :=
  ⟨demo csrPolling0 scWaiting acked, _, demo_inv _ csrPolling0_wf scWaiting_wf, rfl, by decide, by decide⟩

/-- Two states that agree in the CSR sequencer's part and differ elsewhere, and in time. -/
theorem witness_SequencersShareNothing : ∃ s u s' u' : State, step s = .next s' ∧ step u = .next u' ∧
    s.csr = u.csr ∧ s.csrTrace = u.csrTrace ∧ s.params.csrProgram = u.params.csrProgram ∧
    s.edge s.params.clocks.csr = u.edge u.params.clocks.csr ∧ s.rst s.params.clocks.csr = u.rst u.params.clocks.csr ∧
    s.now.csrBus = u.now.csrBus ∧ (s.edge s.params.clocks.csr && s.rst s.params.clocks.csr) = false ∧ s.sc ≠ u.sc ∧
    s.time ≠ u.time :=
  ⟨demo csrPolling0 scWaiting acked, { demo csrPolling0 scDecode0 acked with time := 7 }, _, _, rfl, rfl, rfl, rfl, rfl,
    rfl, rfl, rfl, by decide, by decide, by decide⟩

/-- The same for the serial-config sequencer. -/
theorem witness_SequencersShareNothing_sc : ∃ s u s' u' : State, step s = .next s' ∧ step u = .next u' ∧
    s.sc = u.sc ∧ s.scTrace = u.scTrace ∧ s.params.scProgram = u.params.scProgram ∧
    s.edge s.params.clocks.sc = u.edge u.params.clocks.sc ∧ s.rst s.params.clocks.sc = u.rst u.params.clocks.sc ∧
    s.now.scBus = u.now.scBus ∧ (s.edge s.params.clocks.sc && s.rst s.params.clocks.sc) = false ∧ s.csr ≠ u.csr ∧
    s.time ≠ u.time :=
  ⟨demo csrPolling0 scWaiting acked, { demo csrDecode0 scWaiting acked with time := 7 }, _, _, rfl, rfl, rfl, rfl, rfl,
    rfl, rfl, rfl, by decide, by decide, by decide⟩

theorem witness_IrIsWrittenBeforeRead :
    (demo csrFetch0 scFetch0 quiet).csr.fsm = .fetch ∧ (demo csrFetch0 scFetch0 quiet).sc.fsm = .fetch := ⟨rfl, rfl⟩

/-- Writes held without `ack`, and polls that retry with it: all keep `cyc_stb` at 1. -/
theorem witness_RequestHeldStable : ∃ s t u v : State,
    (step s = .next t ∧ s.csrBusOut.cycStb = true ∧ t.csrBusOut.cycStb = true ∧ s.csrBusOut.we = true ∧
      s.scBusOut.cycStb = true ∧ t.scBusOut.cycStb = true ∧ s.scBusOut.we = true) ∧
    (step u = .next v ∧ u.csrBusOut.cycStb = true ∧ v.csrBusOut.cycStb = true ∧ u.now.csrBus.ack = true ∧
      u.scBusOut.cycStb = true ∧ v.scBusOut.cycStb = true ∧ u.now.scBus.ack = true) :=
  ⟨demo csrWriting scWriting quiet, _, demo csrPolling1 scWaiting (tickAll [] (true, 0x00#8) (true, 0x03#8)), _,
    ⟨rfl, by decide, by decide, by decide, by decide, by decide, by decide⟩,
    ⟨rfl, by decide, by decide, by decide, by decide, by decide, by decide⟩⟩

/-- Each sequencer with a completing transaction, and with none. -/
theorem witness_TransactionCompletesOnAck : ∃ s t u v : State,
    (step s = .next t ∧ s.params.csrProgram.isSome = true ∧ s.edge s.params.clocks.csr = true ∧
      s.rst s.params.clocks.csr = false ∧ (s.csrBusOut.cycStb && s.now.csrBus.ack) = true ∧
      s.params.scProgram.isSome = true ∧ s.edge s.params.clocks.sc = true ∧ s.rst s.params.clocks.sc = false ∧
      (s.scBusOut.cycStb && s.now.scBus.ack) = true) ∧
    (step u = .next v ∧ u.params.csrProgram.isSome = true ∧ u.edge u.params.clocks.csr = true ∧
      u.rst u.params.clocks.csr = false ∧ (u.csrBusOut.cycStb && u.now.csrBus.ack) = false ∧
      (u.scBusOut.cycStb && u.now.scBus.ack) = false) :=
  ⟨demo csrWriting scWriting acked, _, demo csrWriting scFetch0 quiet, _,
    ⟨rfl, by decide⟩, ⟨rfl, by decide⟩⟩

/-- The second poll of the CSR program with one failing read and one that passes, the first with none failing, and
95_test_vectors.md P3's `sc.Wait` with its two failing reads. -/
theorem witness_PollReadsUntilFirstMatch :
    (let s := { demo csrPolling1 scWaiting quiet with script := [0x7F#8, 0x80#8].map (ackInstant 0 quiet) }
     s.Inv ∧ s.csr.fsm = .execute .readUntil1 ∧
     s.script = ([0x7F#8] ++ [0x80#8]).map (ackInstant s.params.clocks.csr quiet) ∧
     (∀ v ∈ [0x7F#8], v.getLsbD (bitField s.csr.ir).toNat ≠ true) ∧ (0x80#8).getLsbD (bitField s.csr.ir).toNat = true) ∧
    (let s := { demo csrPolling0 scWaiting quiet with script := [0xF7#8].map (ackInstant 0 quiet) }
     s.Inv ∧ s.csr.fsm = .execute .readUntil0 ∧ s.script = ([] ++ [0xF7#8]).map (ackInstant s.params.clocks.csr quiet) ∧
     (0xF7#8).getLsbD (bitField s.csr.ir).toNat = false) ∧
    (let s := { demo csrPolling0 scWaiting quiet with script := [0x00#8, 0x03#8, 0x01#8].map (scAckInstant 0 quiet) }
     s.Inv ∧ s.sc.fsm = .execute .wait ∧
     s.script = ([0x00#8, 0x03#8] ++ [immField s.sc.ir]).map (scAckInstant s.params.clocks.sc quiet) ∧
     ∀ v ∈ [0x00#8, 0x03#8], v ≠ immField s.sc.ir) := by
  have h := demo_inv quiet csrPolling1_wf scWaiting_wf
  have h0 := demo_inv quiet csrPolling0_wf scWaiting_wf
  exact ⟨⟨⟨h.legal, h.enc, h.aln, h.gen, h.chk, h.csr, h.sc⟩, rfl, rfl, by decide, by decide⟩,
    ⟨⟨h0.legal, h0.enc, h0.aln, h0.gen, h0.chk, h0.csr, h0.sc⟩, rfl, rfl, by decide⟩,
    ⟨⟨h0.legal, h0.enc, h0.aln, h0.gen, h0.chk, h0.csr, h0.sc⟩, rfl, by decide, by decide⟩⟩

/-- A machine in its second CSR instruction, its trace one completed write and one failed read. -/
def midway : State :=
  { demo csrPolling0 scWriting acked with csrTrace := [.wrote 6#6 0x3E#8, .read 4#6 0x08#8] }

theorem midway_inv : midway.Inv :=
  let h := demo_inv acked csrPolling0_wf scWriting_wf
  ⟨h.legal, h.enc, h.aln, h.gen, h.chk, h.csr, h.sc⟩

theorem midway_follows : midway.TracesFollow where
  csr := ⟨[.wrote 6#6 0x3E#8], [.read 4#6 0x08#8], rfl,
    .cons (.csrWrite 6#6 0x3E#8) [] [] (.wrote 6#6 0x3E#8) [] rfl rfl .nil,
    by intro h; exact absurd h (by decide), by rintro i ⟨⟩; decide⟩
  sc := ⟨[], [], rfl, .nil, fun _ => rfl, by simp⟩

theorem witness_TracesFollowKept : ∃ s t : State, s.Inv ∧ s.TracesFollow ∧ step s = .next t ∧ t.csrTrace ≠ s.csrTrace ∧
    t.scTrace ≠ s.scTrace :=
  ⟨midway, _, midway_inv, midway_follows, rfl, by decide, by decide⟩

theorem witness_InvariantKept : ∃ s t : State, s.Inv ∧ step s = .next t ∧ t.csr ≠ s.csr :=
  ⟨demo csrDecode0 scWriting acked, _, demo_inv _ csrDecode0_wf scWriting_wf, rfl, by decide⟩

theorem witness_InvariantAtReset : refusalOf demoParams = none ∧ refusalOf Params.default = none := by decide

theorem witness_LegalMachineNeverStops : (demo csrEnded scWaiting quiet).Inv := demo_inv _ csrEnded_wf scWaiting_wf

theorem witness_RefusedConfigurationHasNoRun :
    (State.resetFor { Params.default with nLanes := 0 }).params.legal = false ∧
    ((State.resetFor { Params.default with csrProgram := some [] }).params.csrProgram = some [] ∧
      Program.wf .csr [] = false) ∧
    ((State.resetFor { Params.default with scProgram := some [0xC000#16, 0x0000#16] }).params.scProgram =
      some [0xC000#16, 0x0000#16] ∧ Program.wf .sc [0xC000#16, 0x0000#16] = false) := by decide

theorem witness_ConfigurationNeverChanges : ∃ s t : State, step s = .next t ∧ t.csr ≠ s.csr :=
  ⟨demo csrDecode0 scWriting acked, _, rfl, by decide⟩

/-- Domain 0 clocks the sequencers and domain 1 the stream agents: both under reset in one step. -/
theorem witness_ResetOverrides : ∃ s t : State, step s = .next t ∧
    (s.edge 0 = true ∧ s.rst 0 = true ∧ s.params.clocks.csr = 0 ∧ s.params.clocks.sc = 0) ∧
    (s.edge 1 = true ∧ s.rst 1 = true ∧ s.params.clocks.enc = 1 ∧ s.params.clocks.aln = 1 ∧ s.params.clocks.gen = 1 ∧
      s.params.clocks.chk = 1) :=
  ⟨demo csrWriting scEnded (tickAll [0, 1] (true, 0#8) (true, 0#8)), _, rfl, by decide, by decide⟩

/-- An instant with no edge at all. -/
theorem witness_NoEdgeNoChange : ∃ s t : State, step s = .next t ∧
    (s.edge s.params.clocks.enc = false ∧ s.edge s.params.clocks.aln = false ∧ s.edge s.params.clocks.gen = false ∧
      s.edge s.params.clocks.chk = false ∧ s.edge s.params.clocks.csr = false ∧ s.edge s.params.clocks.sc = false) :=
  ⟨demo csrWriting scWriting { acked with edges := [] }, _, rfl, by decide⟩

theorem witness_StreamAgentsStepEveryTick : ∃ s t : State, step s = .next t ∧ s.edge 1 = true ∧ s.rst 1 = false ∧
    s.params.clocks.enc = 1 ∧ s.params.clocks.aln = 1 ∧ s.params.clocks.gen = 1 ∧ s.params.clocks.chk = 1 :=
  ⟨demo csrEnded scWaiting quiet, _, rfl, by decide⟩

/-- The last codeword of a stream of two. -/
theorem witness_RunningDisparityBounded :
    (encodeLanes false [⟨0xBC#8, true⟩, ⟨0x00#8, false⟩])[1]? = some (0b0110001011#10, true) := by decide

/-- The two halves of the representable symbols, and a codeword no symbol is encoded as (it has eight ones). -/
theorem witness_DecoderRoundTrip :
    representable ⟨0xFF#8, false⟩ = true ∧ representable ⟨0xFC#8, true⟩ = true ∧
    ∀ (sym : Symbol) (rd : Bool), (encodeSymbol sym.data sym.isControl rd).1 ≠ 0b1111111100#10 := by
  have h : ∀ (d : BitVec 8) (k rd : Bool), (encodeSymbol d k rd).1 ≠ 0b1111111100#10 := by decide +kernel
  exact ⟨by decide, by decide, fun sym rd => h sym.data sym.isControl rd⟩

/-- The last lane of two, with an empty pipeline and with one in-flight stage. -/
theorem witness_LaneChain :
    [Symbol.mk 0xBC#8 true, ⟨0x00#8, false⟩][1]? = some ⟨0x00#8, false⟩ ∧ (⟨false, [], [], []⟩ : Encoder).pipe = [] ∧
    (⟨false, [⟨[0#10, 0#10], [false, false]⟩], [0#10, 0#10], [false, false]⟩ : Encoder).pipe ≠ [] := by decide

/-- One input word into the ENC_LATENCY = 1 Encoder, and one more tick for one in-flight stage. -/
theorem witness_LatencyOnlyDelays : ∃ (e one : Encoder) (inputs later : List (List Symbol)),
    inputs ≠ [] ∧ one.pipe = [] ∧ one.rdReg = e.rdReg ∧ later.length = e.pipe.length ∧ e.pipe ≠ [] :=
  ⟨⟨false, [⟨[0#10], [false]⟩], [0#10], [false]⟩, ⟨false, [], [0#10], [false]⟩, [[⟨0xBC#8, true⟩]], [[⟨0#8, false⟩]],
    by decide, rfl, rfl, rfl, by decide⟩

/-- 95_test_vectors.md section 3.3: matches at 3 and at 13, the highest; and a buffer of zeros, with none. -/
theorem witness_HighestMatchWins :
    (13 < 10 * 2 ∧ CommaAt 0x354#10 (Bits.ofNat 40 0x00006A9AA0) 13 ∧ CommaAt 0x354#10 (Bits.ofNat 40 0x00006A9AA0) 3 ∧
      ∀ k, k < 10 * 2 → CommaAt 0x354#10 (Bits.ofNat 40 0x00006A9AA0) k → k ≤ 13) ∧
    ∀ j, j < 10 * 2 → ¬ CommaAt 0x354#10 (Bits.ofNat 40 0) j := by
  simp only [CommaAt]; decide

/-- The largest legal `position`. -/
theorem witness_DoutIsShiftedBuffer :
    Aligner.WF Params.default { buf := List.replicate 40 false, position := 19, commaFound := true } :=
  ⟨by decide, by decide⟩

/-- One 10-bit word per tick, the pattern at the last offset of its word, so that it runs over into the next. -/
theorem witness_CommaLatchedAfterThreeTicks :
    let x := Bits.ofNat 10 0
    let y := Bits.ofNat 10 0x1AA
    (Bits.ofNat 20 0).length = 20 * 1 ∧ x.length = 10 * 1 ∧ y.length = 10 * 1 ∧ 9 < 10 * 1 ∧
    ∀ j, j < 10 * 1 → (CommaAt 0x354#10 (x ++ y) j ↔ j = 9) := by
  simp only [CommaAt]; decide

theorem witness_EachCommaMatchedOnce :
    let inputs := [Bits.ofNat 10 0, Bits.ofNat 10 0x1AA, Bits.ofNat 10 0]
    (Bits.ofNat 20 0).length = 20 * 1 ∧ (∀ x ∈ inputs, x.length = 10 * 1) ∧ 2 < inputs.length ∧
    CommaAt 0x354#10 (Bits.ofNat 20 0 ++ inputs.flatten) (10 * 1 * 2 + 9) := by
  simp only [CommaAt]; decide

/-- The LFSR of 95_test_vectors.md section 4.2 and its seed. -/
def smallLfsr : Lfsr := { nState := 4, tap1 := 2, tap2 := 3 }
def smallGen : Generator := { gstate := [true, false, false, false], o := [] }

theorem witness_GeneratorExtendsHistory : smallLfsr.legal = true ∧ smallGen.gstate.length = smallLfsr.nState := by decide

theorem witness_ZeroStateIsIsolated : smallLfsr.legal = true ∧ smallLfsr.tap2 + 1 = smallLfsr.nState ∧
    (Generator.tick smallLfsr 1 ⟨List.replicate 4 false, []⟩).gstate = List.replicate smallLfsr.nState false := by decide

/-- Every flag raised: the largest count of a word. -/
theorem witness_ErrorCountIsPopcount : ∃ c : Checker, [true, true].length = 2 ∧
    (c.tick smallLfsr 2 [true, true]).errorCount = 2 :=
  ⟨⟨[false, false, false, false], [], 0⟩, by decide⟩

theorem witness_CheckerFlagsMismatches : ∃ c : Checker, smallLfsr.legal = true ∧ c.cstate.length = smallLfsr.nState ∧
    [true, false].length = 2 ∧ (c.tick smallLfsr 2 [true, false]).errors[0]? = some true :=
  ⟨⟨[true, false, false, false], [], 0⟩, by decide⟩

/-- Four bits in two words: exactly N_STATE. -/
theorem witness_CheckerResynchronises : ∃ (c : Checker) (words : List Bits), smallLfsr.legal = true ∧
    c.cstate.length = smallLfsr.nState ∧ (∀ x ∈ words, x.length = 2) ∧ smallLfsr.nState ≤ words.length * 2 :=
  ⟨⟨[true, true, true, true], [], 0⟩, [[true, false], [false, true]], by decide⟩

theorem witness_FlagsIndependentOfWordWidth : ∃ c : Checker, smallLfsr.legal = true ∧ c.cstate.length = smallLfsr.nState :=
  ⟨⟨[true, true, true, true], [], 0⟩, by decide⟩

/-- The first word that follows N_STATE bits, and the first word of all from the Generator's own state. -/
theorem witness_CleanStreamHasNoErrors : ∃ c d : Checker, smallLfsr.legal = true ∧
    smallGen.gstate.length = smallLfsr.nState ∧
    (c.cstate.length = smallLfsr.nState ∧ c.cstate ≠ smallGen.gstate ∧ 1 ≤ 3 ∧ smallLfsr.nState ≤ (3 - 1) * 2) ∧
    (d.cstate.length = smallLfsr.nState ∧ d.cstate = smallGen.gstate ∧ 1 ≤ 1) :=
  ⟨⟨[true, true, true, true], [], 0⟩, ⟨[true, false, false, false], [], 0⟩, by decide⟩

/-- The bits 0, 0, 1, 1, 0, 1 of 95_test_vectors.md section 4.2, first in time highest, flipped at the first bit: the
last of its three flags is at bit 1. -/
theorem witness_SingleErrorRaisesThreeFlags :
    let i : Bits := [true, false, true, true, false, false]
    smallLfsr.legal = true ∧ smallGen.gstate.length = smallLfsr.nState ∧ 5 < i.length ∧ smallLfsr.tap2 + 1 ≤ 5 ∧
    ∀ j, j < i.length → Follows smallLfsr (i ++ smallGen.gstate) j := by
  simp only [Follows]; decide

end Sys2Proof.Tests
end

section
/-! SUPPORT. The contract of the Decoder (R7, R8 of 00_scope.md): the disparity of each sub-block of a codeword, the
Decoder as the structural inverse of the codec tables, and its round trip with the Encoder. -/

namespace Sys2Proof.Machine

/-- The ones of two vectors laid side by side. -/
theorem popcount_append {m n : Nat} (a : BitVec m) (b : BitVec n) : popcount (a ++ b) = popcount a + popcount b := by
  have hlow : (List.range n).countP (fun k => (a ++ b).getLsbD k) = popcount b :=
    List.countP_congr fun k hk => by simp [BitVec.getLsbD_append, List.mem_range.1 hk]
  have hhigh : (List.range m).countP ((fun k => (a ++ b).getLsbD k) ∘ (n + ·)) = popcount a :=
    List.countP_congr fun k _ => by simp [BitVec.getLsbD_append]
  have hsplit : List.range (m + n) = List.range n ++ (List.range m).map (n + ·) := by
    rw [Nat.add_comm, List.range_add]
  rw [popcount, hsplit, List.countP_append, List.countP_map, hlow, hhigh, Nat.add_comm]

/-! ### The running disparity (R101) -/

/-- Stage 1: the ones minus the zeros of `o6` lead from the incoming to the intermediate disparity (R96). -/
theorem signOf_encode6 : ∀ (x : BitVec 5) (k rd : Bool),
    signOf (encode6 x k rd).2 = signOf rd + (2 * (popcount (encode6 x k rd).1 : Int) - 6) := by decide

/-- Stage 2: the ones minus the zeros of `o4` lead from the intermediate to the outgoing disparity (R97). -/
theorem signOf_encode4 : ∀ (x : BitVec 5) (y : BitVec 3) (k ri : Bool),
    signOf (encode4 x y k ri).2 = signOf ri + (2 * (popcount (encode4 x y k ri).1 : Int) - 4) := by decide

/-- The ones minus the zeros of a codeword lead from the incoming to the outgoing disparity (R101). -/
theorem signOf_encodeSymbol (d : BitVec 8) (k rd : Bool) :
    signOf (encodeSymbol d k rd).2 = signOf rd + imbalance (encodeSymbol d k rd).1 := by
  have h6 := signOf_encode6 (d.extractLsb' 0 5) k rd
  have h4 := signOf_encode4 (d.extractLsb' 0 5) (d.extractLsb' 5 3) k (encode6 (d.extractLsb' 0 5) k rd).2
  simp only [encodeSymbol, imbalance, popcount_append]
  omega

/-- The disparity after a codeword received at `rd`, read off the codeword's ones and zeros. -/
def trackDisparity (c : Codeword) (rd : Bool) : Bool := decide (0 < signOf rd + imbalance c)

theorem decide_signOf_pos (rd : Bool) : decide (0 < signOf rd) = rd := by cases rd <;> decide

theorem trackDisparity_encodeSymbol (d : BitVec 8) (k rd : Bool) :
    trackDisparity (encodeSymbol d k rd).1 rd = (encodeSymbol d k rd).2 := by
  rw [trackDisparity, ← signOf_encodeSymbol, decide_signOf_pos]

/-! ### The inverse of each stage -/

/-- Is this the 6-bit sub-block of a control symbol? -/
def isControlBlock (o6 : BitVec 6) : Bool := o6 == K6 || o6 == ~~~K6

/-- The 5-bit value a 6-bit data sub-block is the code of, at either disparity. -/
def invert6 (o6 : BitVec 6) : BitVec 5 :=
  BitVec.ofNat 5 <| (List.range 32).findIdx fun n =>
    let x := BitVec.ofNat 5 n
    o6 == T6 x || F6 x && o6 == ~~~(T6 x)

/-- The 3-bit value a 4-bit data sub-block is the code of, at either disparity. A sub-block of none of the values
below 7 is one of 7, whose alternate codes are in no row of `T4`. -/
def invert4 (o4 : BitVec 4) : BitVec 3 :=
  BitVec.ofNat 3 <| (List.range 7).findIdx fun n =>
    let y := BitVec.ofNat 3 n
    o4 == T4 y || F4 y && o4 == ~~~(T4 y)

/-- The 3-bit value a 4-bit control sub-block is the code of, at the intermediate disparity `ri`. -/
def invertK4 (o4 : BitVec 4) (ri : Bool) : BitVec 3 :=
  BitVec.ofNat 3 <| (List.range 8).findIdx fun n => o4 == K4 (BitVec.ofNat 3 n) ri

/-- No 6-bit sub-block of a data symbol is one of a control symbol. -/
theorem isControlBlock_encode6 : ∀ (x : BitVec 5) (k rd : Bool), isControlBlock (encode6 x k rd).1 = k := by decide

/-- A control symbol's 6-bit sub-block shows the intermediate disparity, which its 4-bit sub-block cannot be read
without. -/
theorem encode6_control_disparity : ∀ (x : BitVec 5) (rd : Bool),
    ((encode6 x true rd).1 == K6) = (encode6 x true rd).2 := by decide

theorem invert6_encode6 : ∀ (x : BitVec 5) (rd : Bool), invert6 (encode6 x false rd).1 = x := by decide

theorem invert4_encode4 : ∀ (x : BitVec 5) (y : BitVec 3) (ri : Bool), invert4 (encode4 x y false ri).1 = y := by decide

theorem invertK4_encode4 : ∀ (x : BitVec 5) (y : BitVec 3) (ri : Bool),
    invertK4 (encode4 x y true ri).1 ri = y := by decide

/-! ### The Decoder -/

/-- The one symbol that a codeword can be the code of. -/
def candidate (c : Codeword) : Symbol :=
  let o6 := c.extractLsb' 4 6
  let o4 := c.extractLsb' 0 4
  if isControlBlock o6 then { data := invertK4 o4 (o6 == K6) ++ 28#5, isControl := true }
  else { data := invert4 o4 ++ invert6 o6, isControl := false }

/-- Does the Encoder emit this codeword for the symbol, at one of the disparities? -/
def emits (sym : Symbol) (c : Codeword) : Bool :=
  [false, true].any fun rd => (encodeSymbol sym.data sym.isControl rd).1 == c

/-- The Decoder of R7: the symbol of a codeword, `none` where `invalid = 1`. -/
def decodeCodeword (c : Codeword) : Option Symbol := if emits (candidate c) c then some (candidate c) else none

theorem emits_iff (sym : Symbol) (c : Codeword) :
    emits sym c = true ↔ ∃ rd, (encodeSymbol sym.data sym.isControl rd).1 = c := by
  simp [emits]

theorem candidate_encodeSymbol_control (d : BitVec 8) (rd : Bool) :
    candidate (encodeSymbol d true rd).1 = { data := d.extractLsb' 5 3 ++ 28#5, isControl := true } := by
  simp only [candidate, encodeSymbol, BitVec.extractLsb'_append_eq_left, BitVec.extractLsb'_append_eq_right,
    isControlBlock_encode6, encode6_control_disparity, invertK4_encode4, if_true]

theorem candidate_encodeSymbol_data (d : BitVec 8) (rd : Bool) :
    candidate (encodeSymbol d false rd).1 = { data := d, isControl := false } := by
  simp only [candidate, encodeSymbol, BitVec.extractLsb'_append_eq_left, BitVec.extractLsb'_append_eq_right,
    isControlBlock_encode6, invert4_encode4, invert6_encode6, BitVec.extractLsb'_append_extractLsb',
    Bool.false_eq_true, if_false]

/-- The codeword of a representable symbol, at either disparity, has that symbol as its candidate. -/
theorem candidate_encodeSymbol (sym : Symbol) (rd : Bool) (hsym : representable sym = true) :
    candidate (encodeSymbol sym.data sym.isControl rd).1 = sym := by
  obtain ⟨d, k⟩ := sym
  cases k with
  | false => exact candidate_encodeSymbol_data d rd
  | true =>
    have hlow : d.extractLsb' 0 5 = 28#5 := by simpa [representable] using hsym
    rw [candidate_encodeSymbol_control, ← hlow, BitVec.extractLsb'_append_extractLsb']

theorem decodeCodeword_encodeSymbol (sym : Symbol) (rd : Bool) (hsym : representable sym = true) :
    decodeCodeword (encodeSymbol sym.data sym.isControl rd).1 = some sym := by
  rw [decodeCodeword, candidate_encodeSymbol sym rd hsym, if_pos ((emits_iff _ _).2 ⟨rd, rfl⟩)]

theorem decodeCodeword_eq_none (c : Codeword)
    (hc : ∀ (sym : Symbol) (rd : Bool), (encodeSymbol sym.data sym.isControl rd).1 ≠ c) : decodeCodeword c = none := by
  refine if_neg fun hemits => ?_
  obtain ⟨rd, hrd⟩ := (emits_iff _ _).1 hemits
  exact hc _ rd hrd

/-- Settles O44: the Decoder inverts the codec tables block by block and refuses what does not encode back, and the
disparity it tracks is the sign of the running sum. -/
theorem decoderRoundTrip : Obligations.DecoderRoundTrip := by
  refine ⟨decodeCodeword, trackDisparity, fun sym rd hsym => ⟨?_, ?_, ?_⟩, decodeCodeword_eq_none⟩
  · exact decodeCodeword_encodeSymbol sym rd hsym
  · exact trackDisparity_encodeSymbol sym.data sym.isControl rd
  · rw [trackDisparity_encodeSymbol, signOf_encodeSymbol]

end Sys2Proof.Machine
end

section
/-! SUPPORT. The configuration along a step (R38 of 10_state.md). -/

namespace Sys2Proof.Machine

/-- Settles O36: the sequencers' parts of a step write their own registers and traces only, and the stream agents'
ticks and the end of the instant keep the configuration. -/
theorem configurationNeverChanges : Obligations.ConfigurationNeverChanges := by
  intro s t hstep
  obtain ⟨hparams, -, -⟩ := step_sequencers hstep
  exact hparams

end Sys2Proof.Machine
end

section
/-! SUPPORT. A tick of the Word Aligner, by what matches in its buffer (R122, R123 of 42_word_aligner.md). -/

namespace Sys2Proof.Machine

theorem Aligner.tick_of_highest_match {w : Nat} {comma : Codeword} {a : Aligner} {j : Nat} (din : Bits)
    (hj : j < 10 * w) (hmatch : CommaAt comma a.buf j)
    (hmax : ∀ k, k < 10 * w → CommaAt comma a.buf k → k ≤ j) :
    a.tick w comma din = { buf := a.buf.drop (10 * w) ++ din, position := j, commaFound := true } := by
  have hlast := getLast?_matchSet_eq_some.2 ⟨hj, hmatch, hmax⟩
  rcases a.tick_cases w comma din with ⟨i, hi, htick⟩ | ⟨hnone, -⟩
  · rw [htick, Option.some.inj (hi.symm.trans hlast)]
  · cases hlast.symm.trans hnone

theorem Aligner.tick_of_no_match {w : Nat} {comma : Codeword} {a : Aligner} (din : Bits)
    (hno : ∀ j, j < 10 * w → ¬ CommaAt comma a.buf j) :
    a.tick w comma din = { buf := a.buf.drop (10 * w) ++ din, position := a.position, commaFound := false } := by
  have hlast := getLast?_matchSet_eq_none.2 hno
  rcases a.tick_cases w comma din with ⟨j, hsome, -⟩ | ⟨-, htick⟩
  · cases hlast.symm.trans hsome
  · exact htick

/-- Settles O48: the match set is ascending, so its last member, which the tick takes, is the highest match, and it has
a last member unless nothing matches. -/
theorem highestMatchWins : Obligations.HighestMatchWins := by
  intro w comma din a
  refine ⟨fun j hj hmatch hmax => ?_, fun hno => ?_⟩
  · rw [Aligner.tick_of_highest_match din hj hmatch hmax]
    exact ⟨rfl, rfl⟩
  · rw [Aligner.tick_of_no_match din hno]
    exact ⟨rfl, rfl⟩

end Sys2Proof.Machine
end

section
/-! SUPPORT. A tick of the Generator and of the Checker, in terms of the bit history (R138, R142, R143, R146 of
43_prbs.md). The shift register is the state extended with zeros, which no tap and no output reaches. -/

namespace Sys2Proof.Machine

theorem Lfsr.taps_lt_of_legal {l : Lfsr} (hl : l.legal = true) : l.tap1 < l.nState ∧ l.tap2 < l.nState := by
  simp only [Lfsr.legal, Bool.and_eq_true, decide_eq_true_eq] at hl
  omega

/-! ### A history that ends in a zero-extended register -/

theorem Bits.append_zext (m : Nat) (u v : Bits) : u ++ Bits.zext m v = Bits.zext (u.length + m) (u ++ v) := by
  simp [Bits.zext, Nat.add_sub_add_left]

theorem Bits.take_zext {n : Nat} (m : Nat) {v : Bits} (h : n ≤ v.length) : (Bits.zext m v).take n = v.take n :=
  List.take_append_of_le_length h

theorem Bits.take_append_zext {n : Nat} (m : Nat) (u : Bits) {v : Bits} (h : n ≤ v.length) :
    (u ++ Bits.zext m v).take n = (u ++ v).take n := by
  rw [Bits.append_zext, Bits.take_zext _ (by rw [List.length_append]; omega)]

theorem follows_append_zext (l : Lfsr) (m : Nat) (u v : Bits) (k : Nat) :
    Follows l (u ++ Bits.zext m v) k ↔ Follows l (u ++ v) k := by
  simp only [Follows, Bits.append_zext, Bits.bit_zext]

theorem mismatches_append_zext (l : Lfsr) (m : Nat) (u v : Bits) (n : Nat) :
    mismatches l (u ++ Bits.zext m v) n = mismatches l (u ++ v) n := by
  simp only [mismatches, Bits.append_zext, Bits.bit_zext]

/-! ### The error flags -/

theorem length_mismatches (l : Lfsr) (history : Bits) (n : Nat) : (mismatches l history n).length = n := by
  simp [mismatches]

/-- A flag is raised exactly where the recurrence does not hold. -/
theorem getElem?_mismatches_eq_some_true (l : Lfsr) (history : Bits) {j n : Nat} (hj : j < n) :
    (mismatches l history n)[j]? = some true ↔ ¬ Follows l history j := by
  simp only [mismatches, Follows, List.getElem?_map, List.getElem?_range hj, Option.map_some, Option.some.injEq,
    bne_iff_ne]

/-! ### The ticks -/

/-- The Generator's tick puts `nOut` bits of the recurrence in front of its history (R138). -/
theorem Generator.tick_history (l : Lfsr) (nOut : Nat) (g : Generator) (hl : l.legal = true)
    (hg : g.gstate.length = l.nState) :
    ∃ fresh : Bits, fresh.length = nOut ∧ (∀ k, k < nOut → Follows l (fresh ++ g.gstate) k) ∧
      g.tick l nOut = { gstate := (fresh ++ g.gstate).take l.nState, o := fresh } := by
  obtain ⟨h1, h2⟩ := Lfsr.taps_lt_of_legal hl
  have hm : g.gstate.length ≤ max l.nState nOut := hg.le.trans (le_max_left _ _)
  obtain ⟨fresh, hlen, hgen, hfollows⟩ := generate_history l (max l.nState nOut) (lt_max_of_lt_left h1)
    (lt_max_of_lt_left h2) nOut (Bits.zext (max l.nState nOut) g.gstate) (Bits.length_zext _ _ hm).ge
  rw [← zext_eq_take _ _ hm] at hgen
  refine ⟨fresh, hlen, fun k hk => (follows_append_zext l _ _ _ k).1 (hfollows k hk), ?_⟩
  rw [Generator.tick, hgen, List.take_take, List.take_take, min_eq_left (le_max_left _ _),
    min_eq_left (le_max_right _ _), Bits.take_append_zext _ _ hg.ge, List.take_left' hlen]

/-- The Checker's tick puts the received bits in front of its history and flags the mismatches there (R142, R143). -/
theorem Checker.tick_history (l : Lfsr) (i : Bits) (c : Checker) (hl : l.legal = true)
    (hc : c.cstate.length = l.nState) :
    c.tick l i.length i =
      { cstate := (i ++ c.cstate).take l.nState, errors := mismatches l (i ++ c.cstate) i.length,
        errorCount := errorCountOf (mismatches l (i ++ c.cstate) i.length) } := by
  obtain ⟨h1, h2⟩ := Lfsr.taps_lt_of_legal hl
  have hm : c.cstate.length ≤ max l.nState i.length := hc.le.trans (le_max_left _ _)
  have hpass := checkBits_history l (max l.nState i.length) (lt_max_of_lt_left h1) (lt_max_of_lt_left h2) i.reverse
    (Bits.zext (max l.nState i.length) c.cstate) [] (Bits.length_zext _ _ hm).ge
  rw [← zext_eq_take _ _ hm, List.reverse_reverse, List.length_reverse, List.append_nil,
    mismatches_append_zext] at hpass
  rw [Checker.tick, hpass, List.take_take, min_eq_left (le_max_left _ _), Bits.take_append_zext _ _ hc.ge]

/-- Settles O52: the tick iterates the recurrence on the zero-extended state, whose zeros no tap reaches. -/
theorem generatorExtendsHistory : Obligations.GeneratorExtendsHistory := by
  intro l nOut g hl hg
  obtain ⟨fresh, hlen, hfollows, htick⟩ := g.tick_history l nOut hl hg
  exact ⟨fresh, hlen, hfollows, by rw [htick], by rw [htick]⟩

/-- Settles O54: the tick's flags are the mismatches of the history that the received bits extend. -/
theorem checkerFlagsMismatches : Obligations.CheckerFlagsMismatches := by
  rintro l _ i c hl hc rfl
  rw [c.tick_history l i hl hc]
  exact ⟨length_mismatches _ _ _, fun j hj => getElem?_mismatches_eq_some_true _ _ hj, rfl⟩

end Sys2Proof.Machine
end

section
/-! SUPPORT. An EXECUTE tick of each sequencer by `ack` and the test, and the CSR instructions it completes (R156, R159
to R164 of 44_sequencer_csr.md). -/

namespace Sys2Proof.Machine

variable {s : State} {test : BusData → Bool} {event : BusData → BusEvent}

theorem State.csrExecute_of_no_ack (ha : s.now.csrBus.ack = false) : s.csrExecute test event = s := by
  simp [State.csrExecute, executeTick, ha]

theorem State.scExecute_of_no_ack (ha : s.now.scBus.ack = false) : s.scExecute test event = s := by
  simp [State.scExecute, executeTick, ha]

theorem State.csrExecute_of_pass (ha : s.now.csrBus.ack = true) (ht : test s.now.csrBus.datR = true) :
    s.csrExecute test event =
      { s with csr := s.csr.advanced s.csrLen, csrTrace := s.csrTrace ++ [event s.now.csrBus.datR] } := by
  simp [State.csrExecute, executeTick, ha, ht]

theorem State.csrExecute_of_fail (ha : s.now.csrBus.ack = true) (ht : test s.now.csrBus.datR = false) :
    s.csrExecute test event = { s with csrTrace := s.csrTrace ++ [event s.now.csrBus.datR] } := by
  simp [State.csrExecute, executeTick, ha, ht]

theorem State.csrBusOut_execute {k : CsrKind} (hf : s.csr.fsm = .execute k) :
    s.csrBusOut =
      { cycStb := true, we := k.isWrite, adr := s.csr.adrReg,
        datW := if k.isWrite then immField s.csr.ir else Config.freeReadDatW .csr s.csr.adrReg s.csr.ir } :=
  busOutOf_execute .csr CsrKind.isWrite s.time hf

theorem exec_csrWrite_of_execute (a : BusAddr) (d : BusData) (hf : s.csr.fsm = .execute .write) :
    exec (.csrWrite a d) s = .next (s.csrExecute anyValue fun _ => .wrote s.csr.adrReg d) := by
  simp [exec, execCsrWrite, hf]

theorem exec_readUntil0_of_execute (a : BusAddr) (b : BitVec 3) (hf : s.csr.fsm = .execute .readUntil0) :
    exec (.readUntil0 a b) s = .next (s.csrExecute (bitIs0 b) (.read s.csr.adrReg)) := by
  simp [exec, execReadUntil0, hf]

theorem exec_readUntil1_of_execute (a : BusAddr) (b : BitVec 3) (hf : s.csr.fsm = .execute .readUntil1) :
    exec (.readUntil1 a b) s = .next (s.csrExecute (bitIs1 b) (.read s.csr.adrReg)) := by
  simp [exec, execReadUntil1, hf]

theorem bitIs0_eq_not (b : BitVec 3) (v : BusData) : bitIs0 b v = !v.getLsbD b.toNat := by
  simp [bitIs0, polledBit]

theorem bitIs1_eq (b : BitVec 3) (v : BusData) : bitIs1 b v = v.getLsbD b.toNat := by
  simp [bitIs1, polledBit]

/-- Settles O11: a write's test of the read data always passes. -/
theorem csrWriteCompletes : Obligations.CsrWriteCompletes := by
  rintro address _ s hf rfl ha
  constructor
  · rw [exec_csrWrite_of_execute _ _ hf, State.csrExecute_of_pass ha rfl]
    rfl
  · rw [State.csrBusOut_execute hf]
    rfl

/-- Settles O12: the test passes on a polled bit of 0 and fails on a polled bit of 1. -/
theorem readUntil0Polls : Obligations.ReadUntil0Polls := by
  intro address bitIndex s hf _ ha
  rw [exec_readUntil0_of_execute _ _ hf, State.csrBusOut_execute hf]
  refine ⟨fun hbit => ?_, fun hbit => ?_, rfl, rfl, rfl⟩
  · rw [State.csrExecute_of_pass ha (by rw [bitIs0_eq_not, hbit, Bool.not_false])]
    rfl
  · rw [State.csrExecute_of_fail ha (by rw [bitIs0_eq_not, hbit, Bool.not_true])]

/-- Settles O13: the test passes on a polled bit of 1 and fails on a polled bit of 0. -/
theorem readUntil1Polls : Obligations.ReadUntil1Polls := by
  intro address bitIndex s hf _ ha
  rw [exec_readUntil1_of_execute _ _ hf, State.csrBusOut_execute hf]
  refine ⟨fun hbit => ?_, fun hbit => ?_, rfl, rfl, rfl⟩
  · rw [State.csrExecute_of_pass ha (by rw [bitIs1_eq, hbit])]
    rfl
  · rw [State.csrExecute_of_fail ha (by rw [bitIs1_eq, hbit])]

end Sys2Proof.Machine
end

section
/-! SUPPORT. What construction guarantees of a program, and what the decoders say of a word (R81, R202). -/

namespace Sys2Proof.Machine

theorem getLast?_of_program_wf {isa : Isa} {ws : List Word} (h : Program.wf isa ws = true) :
    ∃ last, ws.getLast? = some last ∧ tagOf last = 0 := by
  unfold Program.wf at h
  split at h
  · cases h
  · simp only [Bool.and_eq_true, beq_iff_eq] at h
    exact ⟨_, ‹_›, h.1.1⟩

theorem tagOf_ne_three_of_program_wf {ws : List Word} (h : Program.wf .sc ws = true) {w : Word} (hw : w ∈ ws) :
    tagOf w ≠ 3 := by
  unfold Program.wf at h
  split at h
  · cases h
  · rw [Bool.and_eq_true] at h
    obtain ⟨-, hall⟩ := h
    have htags : ∀ v ∈ ws, tagOf v ≠ 3 := by simpa using hall
    exact htags w hw

theorem length_pos_of_program_wf {isa : Isa} {ws : List Word} (h : Program.wf isa ws = true) : 0 < ws.length := by
  obtain ⟨last, hlast, -⟩ := getLast?_of_program_wf h
  exact List.length_pos_of_mem (List.mem_of_getLast? hlast)

/-- A word that is not an `End` has a next one, since the last word of a program is an `End` (R202). -/
theorem succ_lt_length_of_program_wf {isa : Isa} {ws : List Word} {k : Nat} {w : Word}
    (h : Program.wf isa ws = true) (hw : ws[k]? = some w) (htag : tagOf w ≠ 0) : k + 1 < ws.length := by
  obtain ⟨last, hlast, hzero⟩ := getLast?_of_program_wf h
  obtain ⟨hk, -⟩ := List.getElem?_eq_some_iff.1 hw
  refine lt_of_le_of_ne hk fun hend => htag ?_
  rw [List.getLast?_eq_getElem?, ← hend, Nat.add_sub_cancel, hw] at hlast
  rwa [Option.some.inj hlast]

/-- A word of tag 0 is its ISA's `End`. -/
theorem isEnd_of_decode {isa : Isa} {w : Word} {i : Instr} (h : decode isa w = .ok i) (htag : tagOf w = 0) :
    i.isEnd = true := by
  have hop : (opField w).toNat = 0 := htag
  cases isa with
  | csr => simp only [decode, decodeCsr, hop] at h; cases h; rfl
  | sc => simp only [decode, decodeSc, hop] at h; cases h; rfl

theorem CsrKind.isEnd_instr (k : CsrKind) (w : Word) : (k.instr w).isEnd = false := by cases k <;> rfl

theorem ScKind.isEnd_instr (k : ScKind) (w : Word) : (k.instr w).isEnd = false := by cases k <;> rfl

/-- DECODE goes to the state of the instruction the word stands for (R158). -/
theorem csrNextState_decode (w : Word) :
    (∀ k, csrNextState w = .execute k → decode .csr w = .ok (k.instr w)) ∧
    (csrNextState w = .ended → decode .csr w = .ok .csrEnd) := by
  have hlt : (opField w).toNat < 4 := (opField w).isLt
  simp only [csrNextState, decode, decodeCsr]
  generalize (opField w).toNat = n at hlt
  interval_cases n <;> simp [CsrKind.instr]

/-- DECODE goes to the state of the instruction the word stands for, unless the word is reserved (R186). -/
theorem scNextState_decode {w : Word} (hop : (opField w).toNat ≠ 3) :
    (∀ k, scNextState w = .execute k → decode .sc w = .ok (k.instr w)) ∧
    (scNextState w = .ended → decode .sc w = .ok .scEnd) := by
  have hlt : (opField w).toNat < 4 := (opField w).isLt
  simp only [scNextState, decode, decodeSc]
  generalize (opField w).toNat = n at hop hlt
  interval_cases n <;> simp [ScKind.instr] at hop ⊢

end Sys2Proof.Machine
end

section
/-! SUPPORT. The relations between a sequencer's registers are kept by each of its ticks (R34 to R36), so that both
sequencers of a legal machine always have a next state (R200). -/

namespace Sys2Proof.Machine

/-! ### One sequencer, of either ISA -/

section
variable {κ : Type} {isa : Isa} {instrOf : κ → Word → Instr} {endInstr : Instr} {ws : List Word} {q : Sequencer κ}

theorem Sequencer.resetAt_wf {program : Option (List Word)}
    (hwf : ∀ ws, program = some ws → Program.wf isa ws = true) (time : Nat) :
    (Sequencer.resetAt isa time).WF isa instrOf endInstr program where
  idle _ := ⟨rfl, rfl⟩
  inProgram ws hp := length_pos_of_program_wf (hwf ws hp)
  holds _ _ hn := absurd rfl hn
  kind _ hk := nomatch hk
  ended he := nomatch he

theorem Sequencer.fetched_wf (h : q.WF isa instrOf endInstr (some ws)) {w : Word} (hw : ws[q.cursor]? = some w) :
    (q.fetched w).WF isa instrOf endInstr (some ws) where
  idle hp := nomatch hp
  inProgram := h.inProgram
  holds := by rintro _ ⟨⟩ -; exact hw
  kind _ hk := nomatch hk
  ended he := nomatch he

theorem Sequencer.dispatched_wf (h : q.WF isa instrOf endInstr (some ws)) (hd : q.fsm = .decode) {next : Fsm κ}
    (hnext : (∀ k, next = .execute k → decode isa q.ir = .ok (instrOf k q.ir)) ∧
      (next = .ended → decode isa q.ir = .ok endInstr)) :
    (q.dispatched (adrField q.ir) next).WF isa instrOf endInstr (some ws) where
  idle hp := nomatch hp
  inProgram := h.inProgram
  holds ws hp _ := h.holds ws hp (by simp [hd])
  kind k hk := ⟨hnext.1 k hk, rfl⟩
  ended := hnext.2

theorem Sequencer.advanced_cursor_of_lt (hlt : q.cursor + 1 < ws.length) :
    (q.advanced ws.length).cursor = q.cursor + 1 :=
  Nat.mod_eq_of_lt (lt_two_pow_cursorWidth hlt)

theorem Sequencer.advanced_wf (hlt : q.cursor + 1 < ws.length) :
    (q.advanced ws.length).WF isa instrOf endInstr (some ws) where
  idle hp := nomatch hp
  inProgram := by rintro _ ⟨⟩; rwa [Sequencer.advanced_cursor_of_lt hlt]
  holds _ _ hn := absurd rfl hn
  kind _ hk := nomatch hk
  ended he := nomatch he

/-- An EXECUTE state is not that of the program's last word, an `End`. -/
theorem Sequencer.WF.succ_cursor_lt (h : q.WF isa instrOf endInstr (some ws)) (hwf : Program.wf isa ws = true) {k : κ}
    (hk : q.fsm = .execute k) (hend : (instrOf k q.ir).isEnd = false) : q.cursor + 1 < ws.length := by
  refine succ_lt_length_of_program_wf hwf (h.holds ws rfl (by simp [hk])) fun htag => ?_
  rw [isEnd_of_decode (h.kind k hk).1 htag] at hend
  cases hend

theorem executeTick_wf (h : q.WF isa instrOf endInstr (some ws)) (hlt : q.cursor + 1 < ws.length) (bus : BusIn)
    (test : BusData → Bool) (event : BusData → BusEvent) (trace : List BusEvent) :
    (executeTick ws.length bus test event q trace).1.WF isa instrOf endInstr (some ws) := by
  rcases executeTick_cases ws.length bus test event q trace with ⟨-, e⟩ | ⟨-, -, e⟩ | ⟨-, -, e⟩ <;> rw [e]
  · exact h
  · exact Sequencer.advanced_wf hlt
  · exact h

end

/-! ### The sequencers' parts of a step -/

/-- The part of the invariant that says the configuration is legal and each sequencer's registers fit together. -/
structure State.SequencersFit (s : State) : Prop where
  legal : refusalOf s.params = none
  csr : s.csr.WF .csr CsrKind.instr .csrEnd s.params.csrProgram
  sc : s.sc.WF .sc ScKind.instr .scEnd s.params.scProgram

theorem State.Inv.sequencersFit {s : State} (h : s.Inv) : s.SequencersFit := ⟨h.legal, h.csr, h.sc⟩

variable {s t : State}

theorem State.csrTick_wf (h : s.SequencersFit) (ht : s.csrTick = .next t) :
    t.csr.WF .csr CsrKind.instr .csrEnd s.params.csrProgram := by
  obtain ⟨-, hwf, -⟩ := refusalOf_eq_none.1 h.legal
  have hq := h.csr
  rcases State.csrTick_cases ht with ⟨rfl, -⟩ | ⟨-, -, rfl⟩ | ⟨-, -, ws, hp, htick⟩
  · exact hq
  · exact Sequencer.resetAt_wf hwf s.time
  · rw [hp] at hq ⊢
    rcases htick with ⟨-, w, hw, rfl⟩ | ⟨hd, rfl⟩ | ⟨k, hk, rfl⟩
    · exact Sequencer.fetched_wf hq hw
    · exact Sequencer.dispatched_wf hq hd (csrNextState_decode s.csr.ir)
    · have hlen : s.csrLen = ws.length := by simp [State.csrLen, hp]
      rw [State.csrExecute_csr, hlen]
      exact executeTick_wf hq (hq.succ_cursor_lt (hwf ws hp) hk (k.isEnd_instr _)) _ _ _ _

theorem State.scTick_wf (h : s.SequencersFit) (ht : s.scTick = .next t) :
    t.sc.WF .sc ScKind.instr .scEnd s.params.scProgram := by
  obtain ⟨-, -, hwf⟩ := refusalOf_eq_none.1 h.legal
  have hq := h.sc
  rcases State.scTick_cases ht with ⟨rfl, -⟩ | ⟨-, -, rfl⟩ | ⟨-, -, ws, hp, htick⟩
  · exact hq
  · exact Sequencer.resetAt_wf hwf s.time
  · rw [hp] at hq ⊢
    rcases htick with ⟨-, w, hw, rfl⟩ | ⟨hd, hop, rfl⟩ | ⟨k, hk, rfl⟩
    · exact Sequencer.fetched_wf hq hw
    · exact Sequencer.dispatched_wf hq hd (scNextState_decode hop)
    · have hlen : s.scLen = ws.length := by simp [State.scLen, hp]
      rw [State.scExecute_sc, hlen]
      exact executeTick_wf hq (hq.succ_cursor_lt (hwf ws hp) hk (k.isEnd_instr _)) _ _ _ _

theorem State.csrRun_fetch {ws : List Word} {w : Word} (hf : s.csr.fsm = .fetch) (hw : ws[s.csr.cursor]? = some w) :
    s.csrRun ws = .next { s with csr := s.csr.fetched w } := by
  simp only [State.csrRun, hf, State.csrFetch, hw]

theorem State.scRun_fetch {ws : List Word} {w : Word} (hf : s.sc.fsm = .fetch) (hw : ws[s.sc.cursor]? = some w) :
    s.scRun ws = .next { s with sc := s.sc.fetched w } := by
  simp only [State.scRun, hf, State.scFetch, hw]

/-- The CSR sequencer's FETCH finds a word, since the cursor is in the program. -/
theorem State.exists_csrTick (h : s.SequencersFit) : ∃ t, s.csrTick = .next t := by
  refine State.clocked_ind (P := fun o : Out => ∃ t, o = .next t) ⟨s, rfl⟩ ⟨s.csrReset, rfl⟩ ?_
  cases hp : s.params.csrProgram with
  | none => exact ⟨s, rfl⟩
  | some ws =>
    cases hf : s.csr.fsm with
    | fetch => exact ⟨_, State.csrRun_fetch hf (List.getElem?_eq_getElem (h.csr.inProgram ws hp))⟩
    | decode => exact ⟨_, State.csrRun_decode ws hf⟩
    | execute k => exact ⟨_, State.csrRun_execute ws hf⟩
    | ended => exact ⟨s, by simp only [State.csrRun, hf]⟩

/-- The serial-config sequencer's FETCH finds a word, and its DECODE no reserved one. -/
theorem State.exists_scTick (h : s.SequencersFit) : ∃ t, s.scTick = .next t := by
  obtain ⟨-, -, hwf⟩ := refusalOf_eq_none.1 h.legal
  refine State.clocked_ind (P := fun o : Out => ∃ t, o = .next t) ⟨s, rfl⟩ ⟨s.scReset, rfl⟩ ?_
  cases hp : s.params.scProgram with
  | none => exact ⟨s, rfl⟩
  | some ws =>
    cases hf : s.sc.fsm with
    | fetch => exact ⟨_, State.scRun_fetch hf (List.getElem?_eq_getElem (h.sc.inProgram ws hp))⟩
    | decode =>
      have hmem : s.sc.ir ∈ ws := List.mem_of_getElem? (h.sc.holds ws hp (by simp [hf]))
      have hop : (opField s.sc.ir).toNat ≠ 3 := tagOf_ne_three_of_program_wf (hwf ws hp) hmem
      exact ⟨_, (State.scRun_decode ws hf).trans (if_neg hop)⟩
    | execute k => exact ⟨_, State.scRun_execute ws hf⟩
    | ended => exact ⟨s, by simp only [State.scRun, hf]⟩

theorem exists_step (h : s.SequencersFit) : ∃ t, step s = .next t := by
  obtain ⟨s1, h1⟩ := State.exists_csrTick h
  obtain ⟨s2, h2⟩ := State.exists_scTick h
  refine ⟨_, step_of_ticks h.legal h1 (s2 := { s2 with csr := s1.csr, csrTrace := s1.csrTrace }) ?_⟩
  rw [State.csrTick_frame h1, State.scTick_with_csr, h2]
  rfl

theorem State.SequencersFit.of_step (h : s.SequencersFit) (ht : step s = .next t) : t.SequencersFit := by
  obtain ⟨hparams, ⟨u, hu, hcsr, -⟩, v, hv, hsc, -⟩ := step_sequencers ht
  constructor
  · rw [hparams]; exact h.legal
  · rw [hparams, hcsr]; exact State.csrTick_wf h hu
  · rw [hparams, hsc]; exact State.scTick_wf h hv

end Sys2Proof.Machine
end

section
/-! SUPPORT. EXECUTE without acknowledge (R159 of 44_sequencer_csr.md): one tick of the instruction, one step of the
machine, and any number of scripted steps. -/

namespace Sys2Proof.Machine

theorem Sequencer.executing_iff {κ : Type} {q : Sequencer κ} : q.executing = true ↔ ∃ k, q.fsm = .execute k := by
  unfold Sequencer.executing
  cases q.fsm <;> simp

variable {s t : State}

/-! ### One tick -/

theorem exec_of_no_ack_csr {i : Instr} (hi : i.isa = .csr) (hx : s.csr.executing = true)
    (ha : s.now.csrBus.ack = false) : exec i s = .next s := by
  obtain ⟨k, hk⟩ := Sequencer.executing_iff.1 hx
  cases i with
  | csrEnd => simp only [exec, execCsrEnd, hk]
  | csrWrite a d => cases k <;> simp only [exec, execCsrWrite, hk, State.csrExecute_of_no_ack ha]
  | readUntil0 a b => cases k <;> simp only [exec, execReadUntil0, hk, State.csrExecute_of_no_ack ha]
  | readUntil1 a b => cases k <;> simp only [exec, execReadUntil1, hk, State.csrExecute_of_no_ack ha]
  | scEnd | scWrite | scWait => cases hi

theorem exec_of_no_ack_sc {i : Instr} (hi : i.isa = .sc) (hx : s.sc.executing = true)
    (ha : s.now.scBus.ack = false) : exec i s = .next s := by
  obtain ⟨k, hk⟩ := Sequencer.executing_iff.1 hx
  cases i with
  | scEnd => simp only [exec, execScEnd, hk]
  | scWrite a d => cases k <;> simp only [exec, execScWrite, hk, State.scExecute_of_no_ack ha]
  | scWait a v => cases k <;> simp only [exec, execScWait, hk, State.scExecute_of_no_ack ha]
  | csrEnd | csrWrite | readUntil0 | readUntil1 => cases hi

/-! ### One step -/

theorem State.csrTick_of_no_ack (hr : s.rst s.params.clocks.csr = false) (hx : s.csr.executing = true)
    (ha : s.now.csrBus.ack = false) : s.csrTick = .next s := by
  obtain ⟨k, hk⟩ := Sequencer.executing_iff.1 hx
  cases he : s.edge s.params.clocks.csr with
  | false => exact State.clocked_of_no_edge he
  | true =>
    refine (State.clocked_of_tick he hr).trans ?_
    cases s.params.csrProgram with
    | none => rfl
    | some ws => exact (State.csrRun_execute ws hk).trans (by rw [State.csrExecute_of_no_ack ha])

theorem State.scTick_of_no_ack (hr : s.rst s.params.clocks.sc = false) (hx : s.sc.executing = true)
    (ha : s.now.scBus.ack = false) : s.scTick = .next s := by
  obtain ⟨k, hk⟩ := Sequencer.executing_iff.1 hx
  cases he : s.edge s.params.clocks.sc with
  | false => exact State.clocked_of_no_edge he
  | true =>
    refine (State.clocked_of_tick he hr).trans ?_
    cases s.params.scProgram with
    | none => rfl
    | some ws => exact (State.scRun_execute ws hk).trans (by rw [State.scExecute_of_no_ack ha])

theorem step_csr_of_no_ack (ht : step s = .next t) (hr : s.rst s.params.clocks.csr = false)
    (hx : s.csr.executing = true) (ha : s.now.csrBus.ack = false) : t.csr = s.csr ∧ t.csrTrace = s.csrTrace := by
  obtain ⟨-, ⟨u, hu, hcsr, htrace⟩, -⟩ := step_sequencers ht
  cases (State.csrTick_of_no_ack hr hx ha).symm.trans hu
  exact ⟨hcsr, htrace⟩

theorem step_sc_of_no_ack (ht : step s = .next t) (hr : s.rst s.params.clocks.sc = false)
    (hx : s.sc.executing = true) (ha : s.now.scBus.ack = false) : t.sc = s.sc ∧ t.scTrace = s.scTrace := by
  obtain ⟨-, -, u, hu, hsc, htrace⟩ := step_sequencers ht
  cases (State.scTick_of_no_ack hr hx ha).symm.trans hu
  exact ⟨hsc, htrace⟩

/-! ### Any number of steps -/

theorem State.now_mem_script (h : 0 < s.script.length) : s.now ∈ s.script := by
  unfold State.now
  cases hs : s.script with
  | nil => rw [hs] at h; cases h
  | cons x xs => exact List.mem_cons_self

theorem run_succ_of_step (n : Nat) (h : step s = .next t) :
    Host.Core.run core (n + 1) s = Host.Core.run core n t := by
  have hcore : core.step s = .next t := h
  simp only [Host.Core.run, hcore]

/-- A legal machine runs through a script whose instants are all of a kind, and keeps what a step on such an instant
keeps. -/
theorem run_of_script {P : State → Prop} {Q : Instant → Prop}
    (hstep : ∀ u v, step u = .next v → P u → Q u.now → P v) :
    ∀ (n : Nat) (s : State), s.SequencersFit → P s → n ≤ s.script.length → (∀ x ∈ s.script, Q x) →
      ∃ t : State, Host.Core.run core n s = .next t ∧ P t
  | 0, s, _, hP, _, _ => ⟨s, rfl, hP⟩
  | n + 1, s, hfit, hP, hn, hQ => by
    obtain ⟨u, hu⟩ := exists_step hfit
    obtain ⟨-, -, -, -, -, hscript⟩ := step_streams hu
    have hPu : P u := hstep s u hu hP (hQ _ (State.now_mem_script (Nat.zero_lt_of_lt hn)))
    have hnu : n ≤ u.script.length := by rw [hscript, List.length_tail]; omega
    have hQu : ∀ x ∈ u.script, Q x := fun x hx => hQ x (List.mem_of_mem_tail (hscript ▸ hx))
    obtain ⟨t, hrun, hPt⟩ := run_of_script hstep n u (hfit.of_step hu) hPu hnu hQu
    exact ⟨t, (run_succ_of_step n hu).trans hrun, hPt⟩

/-- `u` has the configuration of `s`, and its CSR sequencer the registers and the trace of that of `s`. -/
def State.SameCsr (s u : State) : Prop := u.params = s.params ∧ u.csr = s.csr ∧ u.csrTrace = s.csrTrace

/-- `u` has the configuration of `s`, and its serial-config sequencer the registers and the trace of that of `s`. -/
def State.SameSc (s u : State) : Prop := u.params = s.params ∧ u.sc = s.sc ∧ u.scTrace = s.scTrace

theorem State.SameCsr.step_of_no_ack (hx : s.csr.executing = true) (u v : State) (hv : step u = .next v)
    (h : s.SameCsr u) (hq : u.now.rst.contains s.params.clocks.csr = false ∧ u.now.csrBus.ack = false) :
    s.SameCsr v := by
  obtain ⟨hparams, hcsr, htrace⟩ := h
  obtain ⟨hvp, -, -⟩ := step_sequencers hv
  obtain ⟨hvc, hvt⟩ := step_csr_of_no_ack hv (by rw [hparams]; exact hq.1) (by rw [hcsr]; exact hx) hq.2
  exact ⟨hvp.trans hparams, hvc.trans hcsr, hvt.trans htrace⟩

theorem State.SameSc.step_of_no_ack (hx : s.sc.executing = true) (u v : State) (hv : step u = .next v)
    (h : s.SameSc u) (hq : u.now.rst.contains s.params.clocks.sc = false ∧ u.now.scBus.ack = false) :
    s.SameSc v := by
  obtain ⟨hparams, hsc, htrace⟩ := h
  obtain ⟨hvp, -, -⟩ := step_sequencers hv
  obtain ⟨hvc, hvt⟩ := step_sc_of_no_ack hv (by rw [hparams]; exact hq.1) (by rw [hsc]; exact hx) hq.2
  exact ⟨hvp.trans hparams, hvc.trans hsc, hvt.trans htrace⟩

/-- Settles O22: a tick without `ack` assigns nothing, whatever the instruction; a legal machine always has a next
state, so the scripted steps all complete, and each leaves the waiting sequencer as it was. -/
theorem noAckHolds : Obligations.NoAckHolds := by
  refine ⟨fun i s hi hx ha => ⟨exec_of_no_ack_csr hi hx ha, ?_⟩,
    fun i s hi hx ha => ⟨exec_of_no_ack_sc hi hx ha, ?_⟩,
    fun n s hinv hn hquiet hx => ?_, fun n s hinv hn hquiet hx => ?_⟩
  · rw [State.csrBusOut, busOutOf_cycStb, hx]
  · rw [State.scBusOut, busOutOf_cycStb, hx]
  · obtain ⟨t, hrun, -, hcsr, htrace⟩ := run_of_script (State.SameCsr.step_of_no_ack hx) n s hinv.sequencersFit
      ⟨rfl, rfl, rfl⟩ hn hquiet
    exact ⟨t, hrun, hcsr, htrace⟩
  · obtain ⟨t, hrun, -, hsc, htrace⟩ := run_of_script (State.SameSc.step_of_no_ack hx) n s hinv.sequencersFit
      ⟨rfl, rfl, rfl⟩ hn hquiet
    exact ⟨t, hrun, hsc, htrace⟩

end Sys2Proof.Machine
end

section
/-! SUPPORT. The serial-config sequencer's EXECUTE tick with acknowledge, its bus outputs, and `sc.Write`
(45_sequencer_serial_config.md section 3). -/

namespace Sys2Proof.Machine

variable {s : State} {test : BusData → Bool} {event : BusData → BusEvent}

theorem State.scExecute_of_pass (ha : s.now.scBus.ack = true) (ht : test s.now.scBus.datR = true) :
    s.scExecute test event =
      { s with sc := s.sc.advanced s.scLen, scTrace := s.scTrace ++ [event s.now.scBus.datR] } := by
  simp [State.scExecute, executeTick, ha, ht]

theorem State.scBusOut_execute {k : ScKind} (hf : s.sc.fsm = .execute k) :
    s.scBusOut =
      { cycStb := true, we := k.isWrite, adr := s.sc.adrReg,
        datW := if k.isWrite then immField s.sc.ir else Config.freeReadDatW .sc s.sc.adrReg s.sc.ir } :=
  busOutOf_execute .sc ScKind.isWrite s.time hf

theorem exec_scWrite_of_execute (a : BusAddr) (d : BusData) (hf : s.sc.fsm = .execute .scWrite) :
    exec (.scWrite a d) s = .next (s.scExecute anyValue fun _ => .wrote s.sc.adrReg d) := by
  simp [exec, execScWrite, hf]

/-- Settles O15: a write's test of the read data always passes, and a tick without `ack` assigns nothing. -/
theorem scWriteCompletes : Obligations.ScWriteCompletes := by
  rintro address _ s hf rfl
  refine ⟨State.scBusOut_execute hf, fun ha => ?_, fun ha => ?_⟩
  · rw [exec_scWrite_of_execute _ _ hf, State.scExecute_of_pass ha rfl]
    rfl
  · exact exec_of_no_ack_sc rfl (Sequencer.executing_iff.2 ⟨_, hf⟩) ha

end Sys2Proof.Machine
end

section
/-! SUPPORT. Instruction words: what the decoders and the optional check say of a word by its tag, the round trips with
the encoder, and the assembler (30_encoding.md sections 2 to 5). -/

namespace Sys2Proof.Machine

open Sys2Proof.Laws

/-! ### The decoders, by the tag (R85, R86) -/

theorem tagOf_eq (w : Word) : tagOf w = (opField w).toNat := rfl

theorem opField_cases (w : Word) : opField w = 0#2 ∨ opField w = 1#2 ∨ opField w = 2#2 ∨ opField w = 3#2 := by
  have htag : ∀ op : BitVec 2, op = 0#2 ∨ op = 1#2 ∨ op = 2#2 ∨ op = 3#2 := by decide
  exact htag (opField w)

section
variable {w : Word}

theorem decodeCsr_of_tag0 (h : opField w = 0#2) : decodeCsr w = .csrEnd := by simp [decodeCsr, h]
theorem decodeCsr_of_tag1 (h : opField w = 1#2) : decodeCsr w = .csrWrite (adrField w) (immField w) := by
  simp [decodeCsr, h]
theorem decodeCsr_of_tag2 (h : opField w = 2#2) : decodeCsr w = .readUntil0 (adrField w) (bitField w) := by
  simp [decodeCsr, h]
theorem decodeCsr_of_tag3 (h : opField w = 3#2) : decodeCsr w = .readUntil1 (adrField w) (bitField w) := by
  simp [decodeCsr, h]

theorem decodeSc_of_tag0 (h : opField w = 0#2) : decodeSc w = .ok .scEnd := by simp [decodeSc, h]
theorem decodeSc_of_tag1 (h : opField w = 1#2) : decodeSc w = .ok (.scWrite (adrField w) (immField w)) := by
  simp [decodeSc, h]
theorem decodeSc_of_tag2 (h : opField w = 2#2) : decodeSc w = .ok (.scWait (adrField w) (immField w)) := by
  simp [decodeSc, h]
theorem decodeSc_of_tag3 (h : opField w = 3#2) : decodeSc w = .error .reservedTag := by simp [decodeSc, h]

end

/-- Settles O1: each word is decoded by evaluation. -/
theorem workedWordsDecode : Obligations.WorkedWordsDecode := by
  unfold Obligations.WorkedWordsDecode
  decide

/-- Settles O5: by the four tags. -/
theorem onlyReservedTagIsRefused : Obligations.OnlyReservedTagIsRefused := by
  refine ⟨fun w => ?_, fun w => ?_, fun w i h => ?_⟩
  · rcases opField_cases w with hop | hop | hop | hop
    · rw [decodeCsr_of_tag0 hop]; rfl
    · rw [decodeCsr_of_tag1 hop]; rfl
    · rw [decodeCsr_of_tag2 hop]; rfl
    · rw [decodeCsr_of_tag3 hop]; rfl
  · rcases opField_cases w with hop | hop | hop | hop
    · simp [decodeSc_of_tag0 hop, hop]
    · simp [decodeSc_of_tag1 hop, hop]
    · simp [decodeSc_of_tag2 hop, hop]
    · simp [decodeSc_of_tag3 hop, hop]
  · rcases opField_cases w with hop | hop | hop | hop
    · rw [decodeSc_of_tag0 hop] at h; cases h; rfl
    · rw [decodeSc_of_tag1 hop] at h; cases h; rfl
    · rw [decodeSc_of_tag2 hop] at h; cases h; rfl
    · rw [decodeSc_of_tag3 hop] at h; cases h

/-! ### The ignored bits (R77, R202 (f)) -/

/-- The check on ignored bits, by the tag. -/
theorem ignoredBitsZero_singleton (isa : Isa) (w : Word) :
    Program.ignoredBitsZero isa [w] = true ↔
      (opField w = 0#2 → w.extractLsb' 0 14 = 0#14) ∧
      (opField w = 2#2 ∨ opField w = 3#2 → isa = .csr → w.extractLsb' 3 5 = 0#5) := by
  rcases opField_cases w with hop | hop | hop | hop <;> cases isa <;> simp [Program.ignoredBitsZero, tagOf_eq, hop]

theorem extractLsb'_and_of_allOnes {m n : Nat} {v mask : BitVec m} {lo : Nat}
    (h : mask.extractLsb' lo n = BitVec.allOnes n) : (v &&& mask).extractLsb' lo n = v.extractLsb' lo n := by
  rw [BitVec.extractLsb'_and, h, BitVec.and_allOnes]

/-- The bits a CSR poll does not ignore hold its fields. -/
theorem fields_and_pollMask (w : Word) :
    opField (w &&& 0xFF07#16) = opField w ∧ adrField (w &&& 0xFF07#16) = adrField w ∧
      bitField (w &&& 0xFF07#16) = bitField w :=
  ⟨extractLsb'_and_of_allOnes (by decide), extractLsb'_and_of_allOnes (by decide),
    extractLsb'_and_of_allOnes (by decide)⟩

/-- Settles O4: an `End` has no operand, and a CSR poll's fields lie outside its ignored bits. -/
theorem ignoredBitsDoNotMatter : Obligations.IgnoredBitsDoNotMatter := by
  refine ⟨fun isa w v hw hv => ?_, fun w v hop hmask => ?_⟩
  · cases isa
    · simp only [decode, decodeCsr_of_tag0 hw, decodeCsr_of_tag0 hv]
    · simp only [decode, decodeSc_of_tag0 hw, decodeSc_of_tag0 hv]
  · obtain ⟨hwo, hwa, hwb⟩ := fields_and_pollMask w
    obtain ⟨hvo, hva, hvb⟩ := fields_and_pollMask v
    rw [hmask] at hwo hwa hwb
    have hopv : opField v = opField w := hvo.symm.trans hwo
    have hadr : adrField v = adrField w := hva.symm.trans hwa
    have hbit : bitField v = bitField w := hvb.symm.trans hwb
    rcases hop with hop | hop
    · rw [decodeCsr_of_tag2 hop, decodeCsr_of_tag2 (hopv.trans hop), hadr, hbit]
    · rw [decodeCsr_of_tag3 hop, decodeCsr_of_tag3 (hopv.trans hop), hadr, hbit]

/-! ### The words of the encoder (R75, R80) -/

/-- The five bits between a polled address and its bit index are the ignored ones. -/
theorem extractLsb'_bit_form (op : BitVec 2) (a : BusAddr) (b : BitVec 3) :
    (op ++ a ++ 0#5 ++ b).extractLsb' 3 5 = 0#5 := by
  apply BitVec.eq_of_getLsbD_eq
  intro k hk
  simp only [BitVec.getLsbD_extractLsb', BitVec.getLsbD_append, BitVec.getLsbD_zero, decide_eq_true hk, Bool.true_and]
  rw [if_neg (by omega), if_pos (by omega)]

theorem decode_encode (i : Instr) : decode i.isa (encode i) = .ok i := by
  cases i with
  | csrEnd => rfl
  | csrWrite a d =>
    obtain ⟨hop, hadr, himm⟩ := WordFields.csrWrite a d
    rw [Instr.isa, decode, decodeCsr_of_tag1 hop, hadr, himm]
  | readUntil0 a b =>
    obtain ⟨hop, hadr, hbit⟩ := WordFields.readUntil0 a b
    rw [Instr.isa, decode, decodeCsr_of_tag2 hop, hadr, hbit]
  | readUntil1 a b =>
    obtain ⟨hop, hadr, hbit⟩ := WordFields.readUntil1 a b
    rw [Instr.isa, decode, decodeCsr_of_tag3 hop, hadr, hbit]
  | scEnd => rfl
  | scWrite a d =>
    obtain ⟨hop, hadr, himm⟩ := WordFields.scWrite a d
    rw [Instr.isa, decode, decodeSc_of_tag1 hop, hadr, himm]
  | scWait a v =>
    obtain ⟨hop, hadr, himm⟩ := WordFields.scWait a v
    rw [Instr.isa, decode, decodeSc_of_tag2 hop, hadr, himm]

theorem ignoredBitsZero_encode (i : Instr) : Program.ignoredBitsZero i.isa [encode i] = true := by
  rw [ignoredBitsZero_singleton]
  cases i with
  | csrEnd | scEnd => decide
  | csrWrite a d =>
    obtain ⟨hop, -, -⟩ := WordFields.csrWrite a d
    simp [hop]
  | readUntil0 a b =>
    obtain ⟨hop, -, -⟩ := WordFields.readUntil0 a b
    exact ⟨by simp [hop], fun _ _ => extractLsb'_bit_form 2#2 a b⟩
  | readUntil1 a b =>
    obtain ⟨hop, -, -⟩ := WordFields.readUntil1 a b
    exact ⟨by simp [hop], fun _ _ => extractLsb'_bit_form 3#2 a b⟩
  | scWrite a d =>
    obtain ⟨hop, -, -⟩ := WordFields.scWrite a d
    simp [hop]
  | scWait a v =>
    obtain ⟨hop, -, -⟩ := WordFields.scWait a v
    simp [hop, Instr.isa]

/-- Settles O2: the word of an instruction carries its tag and operands in the decoder's fields, and zeros in the
bits no field covers. -/
theorem decodeOfEncode : Obligations.DecodeOfEncode :=
  fun i => ⟨decode_encode i, ignoredBitsZero_encode i⟩

/-! ### A word is its fields laid side by side (R74, R80) -/

/-- A field and the one just below it, side by side, are one field. -/
theorem extractLsb'_append_below (w : Word) (lo m n : Nat) :
    w.extractLsb' (lo + n) m ++ w.extractLsb' lo n = w.extractLsb' lo (m + n) :=
  BitVec.extractLsb'_append_extractLsb'_eq_extractLsb' rfl

theorem byte_form_eq (w : Word) : opField w ++ adrField w ++ immField w = w := by
  rw [opField, adrField, immField, extractLsb'_append_below w 8 2 6, extractLsb'_append_below w 0 8 8,
    BitVec.extractLsb'_eq_self]

theorem bit_form_eq (w : Word) : opField w ++ adrField w ++ w.extractLsb' 3 5 ++ bitField w = w := by
  rw [opField, adrField, bitField, extractLsb'_append_below w 8 2 6, extractLsb'_append_below w 3 8 5,
    extractLsb'_append_below w 0 13 3, BitVec.extractLsb'_eq_self]

theorem tag_form_eq (w : Word) : opField w ++ w.extractLsb' 0 14 = w := by
  rw [opField, extractLsb'_append_below w 0 2 14, BitVec.extractLsb'_eq_self]

theorem eq_zero_of_ignored {w : Word} (hop : opField w = 0#2) (hlow : w.extractLsb' 0 14 = 0#14) : 0#16 = w := by
  rw [← tag_form_eq w, hop, hlow]
  rfl

theorem encode_decodeCsr {w : Word} (h : Program.ignoredBitsZero .csr [w] = true) : encode (decodeCsr w) = w := by
  obtain ⟨hend, hpoll⟩ := (ignoredBitsZero_singleton _ _).1 h
  rcases opField_cases w with hop | hop | hop | hop
  · rw [decodeCsr_of_tag0 hop]
    exact eq_zero_of_ignored hop (hend hop)
  · rw [decodeCsr_of_tag1 hop, encode, ← hop, byte_form_eq]
  · rw [decodeCsr_of_tag2 hop, encode, ← hop, ← hpoll (.inl hop) rfl, bit_form_eq]
  · rw [decodeCsr_of_tag3 hop, encode, ← hop, ← hpoll (.inr hop) rfl, bit_form_eq]

theorem encode_of_decodeSc {w : Word} {i : Instr} (hi : decodeSc w = .ok i)
    (h : Program.ignoredBitsZero .sc [w] = true) : encode i = w := by
  obtain ⟨hend, -⟩ := (ignoredBitsZero_singleton _ _).1 h
  rcases opField_cases w with hop | hop | hop | hop
  · rw [decodeSc_of_tag0 hop] at hi; cases hi
    exact eq_zero_of_ignored hop (hend hop)
  · rw [decodeSc_of_tag1 hop] at hi; cases hi
    rw [encode, ← hop, byte_form_eq]
  · rw [decodeSc_of_tag2 hop] at hi; cases hi
    rw [encode, ← hop, byte_form_eq]
  · rw [decodeSc_of_tag3 hop] at hi; cases hi

/-- Settles O3: the fields the decoder reads and the ignored bits, laid side by side, are the whole word. -/
theorem encodeOfDecode : Obligations.EncodeOfDecode := by
  intro isa w i hi hzero
  cases isa with
  | csr => cases hi; exact encode_decodeCsr hzero
  | sc => exact encode_of_decodeSc hi hzero

/-! ### The assembler (R82, R83) -/

theorem isa_of_stmtInstr {isa : Isa} {st : Stmt} {i : Instr} (h : stmtInstr isa st = some i) : i.isa = isa := by
  obtain ⟨name, args⟩ := st
  unfold stmtInstr at h
  split at h <;> cases h <;> rfl

/-- An argument in range is not truncated by the field it goes to. -/
theorem argumentsOf_of_stmtInstr {isa : Isa} {st : Stmt} {i : Instr} (h : stmtInstr isa st = some i)
    (hwf : st.wf isa = true) : argumentsOf i = st.args := by
  obtain ⟨name, args⟩ := st
  unfold stmtInstr at h
  split at h <;> cases h <;>
    simp_all [Stmt.wf, argumentsOf, Nat.mod_eq_of_lt]

theorem assemble_eq_ok {isa : Isa} {st : Stmt} {w : Word} :
    assemble isa st = .ok w ↔ ∃ i, stmtInstr isa st = some i ∧ st.wf isa = true ∧ encode i = w := by
  unfold assemble
  cases stmtInstr isa st with
  | none => simp
  | some i => cases st.wf isa <;> simp

/-- Settles O6: the assembler encodes exactly the known forms whose arguments are in range. -/
theorem assemblerNeverTruncates : Obligations.AssemblerNeverTruncates := by
  refine ⟨fun isa st w h => ?_, fun isa st i hi hwf => ?_⟩
  · obtain ⟨i, hi, hwf, rfl⟩ := assemble_eq_ok.1 h
    exact ⟨i, isa_of_stmtInstr hi ▸ decode_encode i, argumentsOf_of_stmtInstr hi hwf⟩
  · simp [assemble, hi, hwf]

/-! ### Programs and listings (R202) -/

theorem tagOf_eq_zero (w : Word) : tagOf w = 0 ↔ opField w = 0#2 := by rw [tagOf_eq, ← BitVec.toNat_inj]; rfl

theorem tagOf_eq_three (w : Word) : tagOf w = 3 ↔ opField w = 3#2 := by rw [tagOf_eq, ← BitVec.toNat_inj]; rfl

/-- A program in terms of its last word and the words before it. -/
theorem program_wf_concat (isa : Isa) (init : List Word) (last : Word) :
    Program.wf isa (init ++ [last]) = true ↔
      opField last = 0#2 ∧ (∀ w ∈ init, opField w ≠ 0#2) ∧ (isa = .sc → ∀ w ∈ init ++ [last], opField w ≠ 3#2) := by
  cases isa <;>
    simp [Program.wf, tagOf_eq_zero, tagOf_eq_three, and_assoc, or_imp, forall_and]

/-- A listing in terms of its last instruction and those before it. -/
theorem listing_wf_concat (isa : Isa) (init : List Instr) (last : Instr) :
    Listing.wf isa (init ++ [last]) = true ↔
      last.isEnd = true ∧ (∀ i ∈ init, i.isEnd = false) ∧ ∀ i ∈ init ++ [last], i.isa = isa := by
  simp [Listing.wf, Instr.wf, and_assoc, or_imp, forall_and]

/-- Exactly the last entry of a list has a property, index by index. -/
theorem iff_last_concat {α : Type} {P : α → Prop} (init : List α) (last : α) :
    (∀ (k : Nat) (x : α), (init ++ [last])[k]? = some x → (P x ↔ k + 1 = (init ++ [last]).length)) ↔
      P last ∧ ∀ x ∈ init, ¬ P x := by
  constructor
  · intro h
    refine ⟨(h init.length last (by simp)).2 (by simp), fun x hx hP => ?_⟩
    obtain ⟨k, hk, rfl⟩ := List.getElem_of_mem hx
    have hlast := (h k _ (by rw [List.getElem?_append_left hk, List.getElem?_eq_getElem hk])).1 hP
    rw [List.length_append, List.length_singleton] at hlast
    omega
  · rintro ⟨hlast, hinit⟩ k x hx
    rcases lt_or_ge k init.length with hk | hk
    · rw [List.getElem?_append_left hk] at hx
      refine iff_of_false (hinit x (List.mem_of_getElem? hx)) ?_
      rw [List.length_append, List.length_singleton]
      omega
    · obtain ⟨hlt, -⟩ := List.getElem?_eq_some_iff.1 hx
      have hk' : k = init.length := by rw [List.length_append, List.length_singleton] at hlt; omega
      subst hk'
      rw [List.getElem?_concat_length, Option.some.injEq] at hx
      exact iff_of_true (hx ▸ hlast) (by simp)

/-- Settles O8: a program is its last word behind the others. -/
theorem programWellFormedness : Obligations.ProgramWellFormedness := by
  intro isa ws
  rcases List.eq_nil_or_concat' ws with rfl | ⟨init, last, rfl⟩
  · simp [Program.wf]
  · rw [program_wf_concat, iff_last_concat, and_assoc, List.length_append, List.length_singleton]
    simp

theorem opField_encode_eq_zero (i : Instr) : opField (encode i) = 0#2 ↔ i.isEnd = true := by
  cases i with
  | csrEnd | scEnd => decide
  | csrWrite a d => obtain ⟨hop, -, -⟩ := WordFields.csrWrite a d; simp [hop, Instr.isEnd]
  | readUntil0 a b => obtain ⟨hop, -, -⟩ := WordFields.readUntil0 a b; simp [hop, Instr.isEnd]
  | readUntil1 a b => obtain ⟨hop, -, -⟩ := WordFields.readUntil1 a b; simp [hop, Instr.isEnd]
  | scWrite a d => obtain ⟨hop, -, -⟩ := WordFields.scWrite a d; simp [hop, Instr.isEnd]
  | scWait a v => obtain ⟨hop, -, -⟩ := WordFields.scWait a v; simp [hop, Instr.isEnd]

/-- No serial-config instruction is encoded with the reserved tag. -/
theorem opField_encode_ne_three {i : Instr} (hi : i.isa = .sc) : opField (encode i) ≠ 3#2 := by
  intro hop
  have hdecode := decode_encode i
  rw [hi, decode, decodeSc_of_tag3 hop] at hdecode
  cases hdecode

/-- Settles O7: the tag of an instruction's word is 0 exactly for an `End`, and each word decodes to its own
instruction. -/
theorem listingsAssemble : Obligations.ListingsAssemble := by
  intro isa listing h
  rcases List.eq_nil_or_concat' listing with rfl | ⟨init, last, rfl⟩
  · cases h
  · obtain ⟨hlast, hinit, hisa⟩ := (listing_wf_concat isa init last).1 h
    constructor
    · rw [List.map_append, List.map_singleton, program_wf_concat]
      refine ⟨(opField_encode_eq_zero last).2 hlast, List.forall_mem_map.2 fun i hi => ?_, ?_⟩
      · simp [opField_encode_eq_zero, hinit i hi]
      · rintro rfl
        rw [← List.map_singleton, ← List.map_append]
        exact List.forall_mem_map.2 fun i hi => opField_encode_ne_three (hisa i hi)
    · rw [List.map_map]
      exact List.map_congr_left fun i hi => hisa i hi ▸ decode_encode i

/-- The part of the template that sends one octet and waits for the target to be idle (R193). -/
def scSend (t : ScTarget) (octet : BusData) : List Instr :=
  (t.cmdWrite octet).map (fun c => .scWrite c.1 c.2) ++ [.scWait t.idleAddr t.idleValue]

/-- The template before its `End`. -/
def scTemplateInit (t : ScTarget) (freq : BusData) (octets : List BusData) : List Instr :=
  [.scWrite t.freqAddr freq, .scWrite t.xferAddr t.cmdStart, .scWait t.idleAddr t.idleValue] ++
  octets.flatMap (scSend t) ++ [.scWrite t.xferAddr t.cmdStop, .scWait t.idleAddr t.idleValue]

theorem scTemplate_eq_concat (t : ScTarget) (freq : BusData) (octets : List BusData) :
    scTemplate t freq octets = scTemplateInit t freq octets ++ [.scEnd] := by
  simp [scTemplate, scTemplateInit]
  rfl

theorem isa_isEnd_of_mem_scSend (t : ScTarget) (octet : BusData) :
    ∀ i ∈ scSend t octet, i.isEnd = false ∧ i.isa = .sc := by
  rw [scSend, List.forall_mem_append, List.forall_mem_map, List.forall_mem_singleton]
  exact ⟨fun _ _ => ⟨rfl, rfl⟩, rfl, rfl⟩

/-- Before its `End` the template holds writes and waits only. -/
theorem isa_isEnd_of_mem_scTemplateInit (t : ScTarget) (freq : BusData) (octets : List BusData) :
    ∀ i ∈ scTemplateInit t freq octets, i.isEnd = false ∧ i.isa = .sc := by
  rw [scTemplateInit, List.forall_mem_append, List.forall_mem_append]
  refine ⟨⟨by simp [Instr.isEnd, Instr.isa], fun i hi => ?_⟩, by simp [Instr.isEnd, Instr.isa]⟩
  obtain ⟨octet, -, hi⟩ := List.mem_flatMap.1 hi
  exact isa_isEnd_of_mem_scSend t octet i hi

/-- Settles O9: the template ends in its one `End`, behind writes and waits. -/
theorem scTemplateIsWellFormed : Obligations.ScTemplateIsWellFormed := by
  intro t freq octets
  have hinit := isa_isEnd_of_mem_scTemplateInit t freq octets
  rw [scTemplate_eq_concat, listing_wf_concat, List.forall_mem_append, List.forall_mem_singleton]
  exact ⟨rfl, fun i hi => (hinit i hi).1, fun i hi => (hinit i hi).2, rfl⟩

end Sys2Proof.Machine
end

section
/-! SUPPORT. The machine as a whole: what an instant leaves in each agent, by the edge and the reset of its domain, and
the invariant (10_state.md sections 1 and 9, 60_exceptions.md, 70_reset_and_hazards.md section 1). -/

namespace Sys2Proof.Machine

/-! ### A sequencer in a step, by the edge and the reset of its domain (R20, R220) -/

section
variable {s t : State} (ht : step s = .next t)
include ht

theorem step_csr_of_no_edge (he : s.edge s.params.clocks.csr = false) : t.csr = s.csr ∧ t.csrTrace = s.csrTrace := by
  obtain ⟨-, ⟨u, hu, hcsr, htrace⟩, -⟩ := step_sequencers ht
  rw [State.csrTick, State.clocked_of_no_edge he] at hu
  cases hu
  exact ⟨hcsr, htrace⟩

theorem step_sc_of_no_edge (he : s.edge s.params.clocks.sc = false) : t.sc = s.sc ∧ t.scTrace = s.scTrace := by
  obtain ⟨-, -, u, hu, hsc, htrace⟩ := step_sequencers ht
  rw [State.scTick, State.clocked_of_no_edge he] at hu
  cases hu
  exact ⟨hsc, htrace⟩

theorem step_csr_of_rst (he : s.edge s.params.clocks.csr = true) (hr : s.rst s.params.clocks.csr = true) :
    t.csr = Sequencer.resetAt .csr s.time ∧ t.csrTrace = [] := by
  obtain ⟨-, ⟨u, hu, hcsr, htrace⟩, -⟩ := step_sequencers ht
  rw [State.csrTick, State.clocked_of_rst he hr] at hu
  cases hu
  exact ⟨hcsr, htrace⟩

theorem step_sc_of_rst (he : s.edge s.params.clocks.sc = true) (hr : s.rst s.params.clocks.sc = true) :
    t.sc = Sequencer.resetAt .sc s.time ∧ t.scTrace = [] := by
  obtain ⟨-, -, u, hu, hsc, htrace⟩ := step_sequencers ht
  rw [State.scTick, State.clocked_of_rst he hr] at hu
  cases hu
  exact ⟨hsc, htrace⟩

end

/-- Settles O39: clocking keeps an agent without an edge, and the sequencers' parts are clocked too. -/
theorem noEdgeNoChange : Obligations.NoEdgeNoChange := by
  intro s t ht
  obtain ⟨henc, haln, hgen, hchk, -, -⟩ := step_streams ht
  rw [henc, haln, hgen, hchk]
  exact ⟨fun he => State.clocked_of_no_edge he, fun he => State.clocked_of_no_edge he,
    fun he => State.clocked_of_no_edge he, fun he => State.clocked_of_no_edge he, step_csr_of_no_edge ht,
    step_sc_of_no_edge ht⟩

/-- Settles O38: clocking takes an agent's reset values whenever its domain's reset is asserted at an edge. -/
theorem resetOverrides : Obligations.ResetOverrides := by
  intro s t d ht he hr
  obtain ⟨henc, haln, hgen, hchk, -, -⟩ := step_streams ht
  rw [henc, haln, hgen, hchk]
  refine ⟨?_, ?_, ?_, ?_, ?_, ?_⟩ <;> rintro rfl
  · rw [State.tickStreams_enc, State.clocked_of_rst he hr]; rfl
  · rw [State.tickStreams_aln, State.clocked_of_rst he hr]; rfl
  · rw [State.tickStreams_gen, State.clocked_of_rst he hr]; rfl
  · rw [State.tickStreams_chk, State.clocked_of_rst he hr]; rfl
  · rw [(step_csr_of_rst ht he hr).1]
    exact ⟨rfl, rfl, rfl⟩
  · rw [(step_sc_of_rst ht he hr).1]
    exact ⟨rfl, rfl, rfl⟩

/-- Settles O40: clocking steps a stream agent at every edge without reset, from the state before the step. -/
theorem streamAgentsStepEveryTick : Obligations.StreamAgentsStepEveryTick := by
  intro s t d ht he hr
  obtain ⟨henc, haln, hgen, hchk, -, -⟩ := step_streams ht
  rw [henc, haln, hgen, hchk]
  refine ⟨?_, ?_, ?_, ?_⟩ <;> rintro rfl <;> exact State.clocked_of_tick he hr

/-! ### The length of a constructed program (R9) -/

theorem State.csrLen_eq {s : State} {ws : List Word} (hp : s.params.csrProgram = some ws) : s.csrLen = ws.length := by
  rw [State.csrLen, hp, Option.getD_some]

theorem State.scLen_eq {s : State} {ws : List Word} (hp : s.params.scProgram = some ws) : s.scLen = ws.length := by
  rw [State.scLen, hp, Option.getD_some]

/-! ### The widths (R42) -/

section
variable {p : Params}

theorem Params.widths_of_legal (h : p.legal = true) :
    1 ≤ p.alignW ∧ p.genLfsr.legal = true ∧ p.chkLfsr.legal = true := by
  simp only [Params.legal, Bool.and_eq_true, decide_eq_true_eq] at h
  tauto

theorem EncStage.freeAt_wf (n time stage : Nat) : (EncStage.freeAt n time stage).WF n :=
  ⟨by simp [EncStage.freeAt], by simp [EncStage.freeAt]⟩

theorem Encoder.resetAt_wf (p : Params) (time : Nat) : (Encoder.resetAt p time).WF p where
  out := (EncStage.freeAt_wf p.nLanes time 0).out
  disp := (EncStage.freeAt_wf p.nLanes time 0).disp
  pipe := by simp [Encoder.resetAt]
  stages := List.forall_mem_map.2 fun k _ => EncStage.freeAt_wf p.nLanes time (k + 1)

theorem Aligner.resetFor_wf (h : 1 ≤ p.alignW) : (Aligner.resetFor p).WF p where
  buf := List.length_replicate
  position := Nat.mul_pos (by decide) h

theorem Generator.resetFor_wf (p : Params) : (Generator.resetFor p).WF p where
  gstate := Bits.length_ofNat _ _
  o := List.length_replicate

theorem Checker.resetFor_wf (p : Params) : (Checker.resetFor p).WF p where
  cstate := Bits.length_ofNat _ _
  errors := List.length_replicate
  errorCount := by simp [Checker.resetFor, Bits.popcount, List.count_replicate]

theorem Generator.tick_wf {g : Generator} (hl : p.genLfsr.legal = true) (h : g.WF p) :
    (g.tick p.genLfsr p.nOut).WF p := by
  obtain ⟨fresh, hlen, -, htick⟩ := g.tick_history p.genLfsr p.nOut hl h.gstate
  rw [htick]
  exact ⟨by simp [h.gstate], hlen⟩

theorem Checker.tick_wf {c : Checker} (x : Instant) (hl : p.chkLfsr.legal = true) (h : c.WF p) :
    (c.tick p.chkLfsr p.nIn (iPort p.nIn x)).WF p := by
  have htick := c.tick_history p.chkLfsr (iPort p.nIn x) hl h.cstate
  have hlen : (iPort p.nIn x).length = p.nIn := Bits.length_ofNat _ _
  rw [hlen] at htick
  rw [htick]
  exact ⟨by simp [h.cstate], length_mismatches _ _ _, rfl⟩

end

/-! ### The invariant -/

/-- Settles O32: every update of an agent keeps its part: a sequencer's tick, and the stream agents' ticks and
resets. -/
theorem invariantKept : Obligations.InvariantKept := by
  intro s t h ht
  have hfit := h.sequencersFit.of_step ht
  obtain ⟨hparams, -, -⟩ := step_sequencers ht
  obtain ⟨henc, haln, hgen, hchk, -, -⟩ := step_streams ht
  obtain ⟨hw, hlgen, hlchk⟩ := Params.widths_of_legal (refusalOf_eq_none.1 h.legal).1
  have hdin : (dinPort s.params.alignW s.now).length = 10 * s.params.alignW := Bits.length_ofNat _ _
  refine ⟨hfit.legal, ?_, ?_, ?_, ?_, hfit.csr, hfit.sc⟩ <;> rw [hparams]
  · rw [henc]
    exact State.clocked_ind h.enc (Encoder.resetAt_wf _ _) (Encoder.tick_wf h.enc (length_lanePorts _ _))
  · rw [haln]
    exact State.clocked_ind h.aln (Aligner.resetFor_wf hw) (Aligner.tick_wf h.aln hdin)
  · rw [hgen]
    exact State.clocked_ind h.gen (Generator.resetFor_wf _) (Generator.tick_wf hlgen h.gen)
  · rw [hchk]
    exact State.clocked_ind h.chk (Checker.resetFor_wf _) (Checker.tick_wf _ hlchk h.chk)

theorem State.resetFor_inv {p : Params} (h : refusalOf p = none) : (State.resetFor p).Inv := by
  obtain ⟨hlegal, hcsr, hsc⟩ := refusalOf_eq_none.1 h
  obtain ⟨hw, -, -⟩ := Params.widths_of_legal hlegal
  exact ⟨h, Encoder.resetAt_wf p 0, Aligner.resetFor_wf hw, Generator.resetFor_wf p, Checker.resetFor_wf p,
    Sequencer.resetAt_wf hcsr 0, Sequencer.resetAt_wf hsc 0⟩

/-- Settles O33: the reset of each agent has its widths, and both sequencers are in FETCH at index 0. -/
theorem invariantAtReset : Obligations.InvariantAtReset :=
  ⟨fun _ h => State.resetFor_inv h, State.resetFor_inv (by decide)⟩

/-- Settles O37: the reset values are those of the definition. -/
theorem resetValues : Obligations.ResetValues :=
  fun _ => ⟨rfl, rfl, rfl, rfl, rfl, rfl, rfl, rfl, rfl, rfl⟩

/-- Settles O34: a FETCH finds a word, and a DECODE no reserved one. -/
theorem legalMachineNeverStops : Obligations.LegalMachineNeverStops :=
  fun _ h => exists_step h.sequencersFit

/-- Settles O35: such a configuration fails the construction check, which the step makes first. -/
theorem refusedConfigurationHasNoRun : Obligations.RefusedConfigurationHasNoRun := by
  intro s hbad
  cases hr : refusalOf s.params with
  | some r => exact ⟨r, by rw [step, hr]⟩
  | none =>
    obtain ⟨hlegal, hcsr, hsc⟩ := refusalOf_eq_none.1 hr
    rcases hbad with hbad | ⟨ws, hp, hbad⟩ | ⟨ws, hp, hbad⟩
    · rw [hlegal] at hbad; cases hbad
    · rw [hcsr ws hp] at hbad; cases hbad
    · rw [hsc ws hp] at hbad; cases hbad

end Sys2Proof.Machine
end

section
/-! SUPPORT. The bus traces follow the programs (R177 of 44_sequencer_csr.md, R194 of 45_sequencer_serial_config.md):
what one transaction adds, and that every tick of a sequencer keeps it. -/

namespace Sys2Proof.Machine

/-! ### What one transaction adds to a trace -/

section
variable {program : List Instr} {cursor : Nat} {executing : Bool} {trace : List BusEvent} {i : Instr} {e : BusEvent}

/-- One more completed instruction at the end. -/
theorem TraceOf.concat {done fails : List BusEvent} (h : TraceOf program done) (hf : fails.all (failedRead i) = true)
    (he : completingEvent i e = true) : TraceOf (program ++ [i]) (done ++ fails ++ [e]) := by
  induction h with
  | nil => exact .cons i [] fails e [] hf he .nil
  | cons j rest fails' last more hf' hlast hrest ih =>
    have hassoc : fails' ++ last :: more ++ fails ++ [e] = fails' ++ last :: (more ++ fails ++ [e]) := by simp
    rw [hassoc]
    exact .cons j _ fails' last _ hf' hlast ih

theorem traceFollows_nil (program : List Instr) (executing : Bool) : TraceFollows program 0 executing [] :=
  ⟨[], [], rfl, .nil, fun _ => rfl, fun _ _ => rfl⟩

/-- Outside EXECUTE no reads are pending, so the trace follows the program in any state at that instruction. -/
theorem TraceFollows.of_not_executing (h : TraceFollows program cursor false trace) (executing : Bool) :
    TraceFollows program cursor executing trace := by
  obtain ⟨done, pending, htrace, hdone, hnone, hpending⟩ := h
  exact ⟨done, pending, htrace, hdone, fun _ => hnone rfl, hpending⟩

/-- A failed read of the instruction in progress is one more pending read. -/
theorem TraceFollows.failed_read (h : TraceFollows program cursor true trace) (hi : program[cursor]? = some i)
    (he : failedRead i e = true) : TraceFollows program cursor true (trace ++ [e]) := by
  obtain ⟨done, pending, rfl, hdone, -, hpending⟩ := h
  refine ⟨done, pending ++ [e], List.append_assoc _ _ _, hdone, nofun, fun j hj => ?_⟩
  cases hi.symm.trans hj
  simp [hpending i hi, he]

/-- The transaction that completes the instruction in progress ends its part of the trace. -/
theorem TraceFollows.completed (h : TraceFollows program cursor executing trace) (hi : program[cursor]? = some i)
    (he : completingEvent i e = true) : TraceFollows program (cursor + 1) false (trace ++ [e]) := by
  obtain ⟨done, pending, rfl, hdone, -, hpending⟩ := h
  refine ⟨done ++ pending ++ [e], [], (List.append_nil _).symm, ?_, fun _ => rfl, fun _ _ => rfl⟩
  rw [List.take_add_one, hi]
  exact hdone.concat (hpending i hi) he

end

/-! ### The transactions of an EXECUTE state -/

theorem CsrKind.completingEvent_of_test {k : CsrKind} {w : Word} {v : BusData} (h : k.test w v = true) :
    completingEvent (k.instr w) (k.event (adrField w) w v) = true := by
  cases k with
  | write => simp [CsrKind.instr, CsrKind.event, completingEvent]
  | readUntil0 | readUntil1 => simpa [CsrKind.instr, CsrKind.event, CsrKind.test, completingEvent] using h

theorem CsrKind.failedRead_of_test {k : CsrKind} {w : Word} {v : BusData} (h : k.test w v = false) :
    failedRead (k.instr w) (k.event (adrField w) w v) = true := by
  cases k with
  | write => cases h
  | readUntil0 | readUntil1 => simpa [CsrKind.instr, CsrKind.event, CsrKind.test, failedRead] using h

theorem ScKind.completingEvent_of_test {k : ScKind} {w : Word} {v : BusData} (h : k.test w v = true) :
    completingEvent (k.instr w) (k.event (adrField w) w v) = true := by
  cases k with
  | scWrite => simp [ScKind.instr, ScKind.event, completingEvent]
  | wait => simpa [ScKind.instr, ScKind.event, ScKind.test, completingEvent] using h

theorem ScKind.failedRead_of_test {k : ScKind} {w : Word} {v : BusData} (h : k.test w v = false) :
    failedRead (k.instr w) (k.event (adrField w) w v) = true := by
  cases k with
  | scWrite => cases h
  | wait => simpa [ScKind.instr, ScKind.event, ScKind.test, failedRead] using h

/-- An EXECUTE tick keeps the trace the program's: nothing happens, a read fails, or the instruction completes. -/
theorem executeTick_traceFollows {κ : Type} {program : List Instr} {i : Instr} {q : Sequencer κ}
    {trace : List BusEvent} {len : Nat} {bus : BusIn} {test : BusData → Bool} {event : BusData → BusEvent}
    (h : TraceFollows program q.cursor q.executing trace) (hx : q.executing = true)
    (hi : program[q.cursor]? = some i) (hcursor : (q.advanced len).cursor = q.cursor + 1)
    (hpass : ∀ v, test v = true → completingEvent i (event v) = true)
    (hfail : ∀ v, test v = false → failedRead i (event v) = true) :
    TraceFollows program (executeTick len bus test event q trace).1.cursor
      (executeTick len bus test event q trace).1.executing (executeTick len bus test event q trace).2 := by
  rcases executeTick_cases len bus test event q trace with ⟨-, e⟩ | ⟨-, htest, e⟩ | ⟨-, htest, e⟩ <;> rw [e]
  · exact h
  · rw [hcursor]
    exact h.completed hi (hpass _ htest)
  · rw [hx] at h ⊢
    exact h.failed_read hi (hfail _ htest)

/-! ### The programs as listings -/

theorem getElem?_filterMap_of_isSome {α β : Type} {f : α → Option β} {xs : List α} (h : ∀ x ∈ xs, (f x).isSome = true)
    (k : Nat) : (xs.filterMap f)[k]? = xs[k]?.bind f := by
  induction xs generalizing k with
  | nil => simp
  | cons x xs ih =>
    obtain ⟨y, hy⟩ := Option.isSome_iff_exists.1 (h x List.mem_cons_self)
    rw [List.filterMap_cons_some hy]
    cases k with
    | zero => simp [hy]
    | succ k => simpa using ih (fun z hz => h z (List.mem_cons_of_mem x hz)) k

theorem exists_decodeSc {w : Word} (h : tagOf w ≠ 3) : ∃ i, decodeSc w = .ok i := by
  rw [Ne, tagOf_eq_three] at h
  rcases opField_cases w with hop | hop | hop | hop
  · exact ⟨_, decodeSc_of_tag0 hop⟩
  · exact ⟨_, decodeSc_of_tag1 hop⟩
  · exact ⟨_, decodeSc_of_tag2 hop⟩
  · exact absurd hop h

/-- A serial-config program that passed construction holds no word its listing drops. -/
theorem getElem?_scListing {ws : List Word} (hwf : Program.wf .sc ws = true) {k : Nat} {w : Word} {i : Instr}
    (hw : ws[k]? = some w) (hi : decodeSc w = .ok i) : (scListing ws)[k]? = some i := by
  have hsome : ∀ v ∈ ws, (decodeSc v).toOption.isSome = true := by
    intro v hv
    obtain ⟨j, hj⟩ := exists_decodeSc (tagOf_ne_three_of_program_wf hwf hv)
    rw [hj]
    rfl
  rw [scListing, getElem?_filterMap_of_isSome hsome, hw, Option.bind_some, hi]
  rfl

theorem getElem?_map_decodeCsr {ws : List Word} {k : Nat} {w : Word} {i : Instr} (hw : ws[k]? = some w)
    (hi : decode .csr w = .ok i) : (ws.map decodeCsr)[k]? = some i := by
  cases hi
  rw [List.getElem?_map, hw, Option.map_some]

/-! ### A sequencer's part of a step -/

theorem Sequencer.executing_of_execute {κ : Type} {q : Sequencer κ} {k : κ} (h : q.fsm = .execute k) :
    q.executing = true := Sequencer.executing_iff.2 ⟨k, h⟩

theorem Sequencer.executing_of_decode {κ : Type} {q : Sequencer κ} (h : q.fsm = .decode) : q.executing = false := by
  simp [Sequencer.executing, h]

theorem Sequencer.executing_of_fetch {κ : Type} {q : Sequencer κ} (h : q.fsm = .fetch) : q.executing = false := by
  simp [Sequencer.executing, h]

variable {s t : State}

/-- An EXECUTE state of a legal machine is not at the last word of its program, an `End`. -/
theorem State.SequencersFit.csr_succ_lt {ws : List Word} {k : CsrKind} (h : s.SequencersFit)
    (hp : s.params.csrProgram = some ws) (hx : s.csr.fsm = .execute k) : s.csr.cursor + 1 < ws.length := by
  obtain ⟨-, hwf, -⟩ := refusalOf_eq_none.1 h.legal
  exact (hp ▸ h.csr).succ_cursor_lt (hwf ws hp) hx (k.isEnd_instr _)

theorem State.SequencersFit.sc_succ_lt {ws : List Word} {k : ScKind} (h : s.SequencersFit)
    (hp : s.params.scProgram = some ws) (hx : s.sc.fsm = .execute k) : s.sc.cursor + 1 < ws.length := by
  obtain ⟨-, -, hwf⟩ := refusalOf_eq_none.1 h.legal
  exact (hp ▸ h.sc).succ_cursor_lt (hwf ws hp) hx (k.isEnd_instr _)

theorem State.csrTick_traceFollows (h : s.SequencersFit)
    (hf : TraceFollows ((s.params.csrProgram.getD []).map decodeCsr) s.csr.cursor s.csr.executing s.csrTrace)
    (ht : s.csrTick = .next t) :
    TraceFollows ((s.params.csrProgram.getD []).map decodeCsr) t.csr.cursor t.csr.executing t.csrTrace := by
  have hq := h.csr
  rcases State.csrTick_cases ht with ⟨rfl, -⟩ | ⟨-, -, rfl⟩ | ⟨-, -, ws, hp, ⟨hx, w, -, rfl⟩ | ⟨hx, rfl⟩ | ⟨k, hx, rfl⟩⟩
  · exact hf
  · exact traceFollows_nil _ _
  · rw [Sequencer.executing_of_fetch hx] at hf
    exact hf.of_not_executing _
  · rw [Sequencer.executing_of_decode hx] at hf
    exact hf.of_not_executing _
  · rw [hp] at hq
    obtain ⟨hdecode, hadr⟩ := hq.kind k hx
    have hi := getElem?_map_decodeCsr (hq.holds ws rfl (by simp [hx])) hdecode
    have hlt := h.csr_succ_lt hp hx
    rw [hp, Option.getD_some] at hf ⊢
    rw [State.csrExecute_csr, State.csrExecute_csrTrace, State.csrLen_eq hp, hadr]
    exact executeTick_traceFollows hf (Sequencer.executing_of_execute hx) hi (Sequencer.advanced_cursor_of_lt hlt)
      (fun _ => CsrKind.completingEvent_of_test) (fun _ => CsrKind.failedRead_of_test)

theorem State.scTick_traceFollows (h : s.SequencersFit)
    (hf : TraceFollows (scListing (s.params.scProgram.getD [])) s.sc.cursor s.sc.executing s.scTrace)
    (ht : s.scTick = .next t) :
    TraceFollows (scListing (s.params.scProgram.getD [])) t.sc.cursor t.sc.executing t.scTrace := by
  obtain ⟨-, -, hwf⟩ := refusalOf_eq_none.1 h.legal
  have hq := h.sc
  rcases State.scTick_cases ht with
    ⟨rfl, -⟩ | ⟨-, -, rfl⟩ | ⟨-, -, ws, hp, ⟨hx, w, -, rfl⟩ | ⟨hx, -, rfl⟩ | ⟨k, hx, rfl⟩⟩
  · exact hf
  · exact traceFollows_nil _ _
  · rw [Sequencer.executing_of_fetch hx] at hf
    exact hf.of_not_executing _
  · rw [Sequencer.executing_of_decode hx] at hf
    exact hf.of_not_executing _
  · rw [hp] at hq
    obtain ⟨hdecode, hadr⟩ := hq.kind k hx
    have hi := getElem?_scListing (hwf ws hp) (hq.holds ws rfl (by simp [hx])) hdecode
    have hlt := h.sc_succ_lt hp hx
    rw [hp, Option.getD_some] at hf ⊢
    rw [State.scExecute_sc, State.scExecute_scTrace, State.scLen_eq hp, hadr]
    exact executeTick_traceFollows hf (Sequencer.executing_of_execute hx) hi (Sequencer.advanced_cursor_of_lt hlt)
      (fun _ => ScKind.completingEvent_of_test) (fun _ => ScKind.failedRead_of_test)

/-- Settles O30: only an acknowledged EXECUTE tick adds to a trace, a failed read or the transaction that completes the
instruction at the cursor. -/
theorem tracesFollowKept : Obligations.TracesFollowKept := by
  intro s t hinv hf ht
  obtain ⟨hparams, ⟨u, hu, hcsr, hcsrTrace⟩, v, hv, hsc, hscTrace⟩ := step_sequencers ht
  constructor
  · rw [hparams, hcsr, hcsrTrace]
    exact State.csrTick_traceFollows hinv.sequencersFit hf.csr hu
  · rw [hparams, hsc, hscTrace]
    exact State.scTick_traceFollows hinv.sequencersFit hf.sc hv

/-- Settles O31: both traces are empty and both cursors at 0. -/
theorem tracesFollowAtReset : Obligations.TracesFollowAtReset :=
  fun _ => ⟨traceFollows_nil _ _, traceFollows_nil _ _⟩

end Sys2Proof.Machine
end

section
/-! SUPPORT. The DECODE ticks of the instructions, `sc.Wait`, and the frames of the two ISAs (44_sequencer_csr.md
sections 1 and 2, 45_sequencer_serial_config.md sections 2 and 3). -/

namespace Sys2Proof.Machine

section
variable {s : State}

/-! ### DECODE (R158, R186) -/

theorem busOutOf_cycStb_of_decode {κ : Type} {q : Sequencer κ} (isa : Isa) (isWrite : κ → Bool) (time : Nat)
    (h : q.fsm = .decode) : (busOutOf isa isWrite time q).cycStb = false := by
  rw [busOutOf_cycStb, Sequencer.executing_of_decode h]

/-- Settles O10: by the definition of `End` in DECODE. -/
theorem csrEndCompletes : Obligations.CsrEndCompletes := by
  intro s h
  simp [exec, execCsrEnd, h, State.csrDispatch, Sequencer.dispatched]

/-- Settles O14: by the definition of `sc.End` in DECODE. -/
theorem scEndCompletes : Obligations.ScEndCompletes := by
  intro s h
  simp [exec, execScEnd, h, State.scDispatch, Sequencer.dispatched]

/-- Settles O17: by the definition of each instruction in DECODE, a state without a request. -/
theorem decodeTickDispatches : Obligations.DecodeTickDispatches := by
  refine fun a d b s => ⟨fun h => ⟨?_, ?_, ?_, busOutOf_cycStb_of_decode _ _ _ h⟩,
    fun h => ⟨?_, ?_, busOutOf_cycStb_of_decode _ _ _ h⟩⟩
  · simp [exec, execCsrWrite, h, State.csrDispatch, Sequencer.dispatched]
  · simp [exec, execReadUntil0, h, State.csrDispatch, Sequencer.dispatched]
  · simp [exec, execReadUntil1, h, State.csrDispatch, Sequencer.dispatched]
  · simp [exec, execScWrite, h, State.scDispatch, Sequencer.dispatched]
  · simp [exec, execScWait, h, State.scDispatch, Sequencer.dispatched]

/-! ### `sc.Wait` (R188) -/

theorem State.scExecute_of_fail {test : BusData → Bool} {event : BusData → BusEvent} (ha : s.now.scBus.ack = true)
    (ht : test s.now.scBus.datR = false) :
    s.scExecute test event = { s with scTrace := s.scTrace ++ [event s.now.scBus.datR] } := by
  simp [State.scExecute, executeTick, ha, ht]

theorem exec_scWait_of_execute (a : BusAddr) (v : BusData) (hf : s.sc.fsm = .execute .wait) :
    exec (.scWait a v) s = .next (s.scExecute (equalsValue v) (.read s.sc.adrReg)) := by
  simp [exec, execScWait, hf]

/-- Settles O16: the test passes on the expected byte alone. -/
theorem scWaitPolls : Obligations.ScWaitPolls := by
  intro address expected s hf _
  rw [exec_scWait_of_execute _ _ hf, State.scBusOut_execute hf]
  refine ⟨fun ha hv => ?_, fun ha hv => ?_, fun ha => ?_, rfl, rfl, rfl⟩
  · rw [State.scExecute_of_pass ha (by simp [equalsValue, hv])]
    rfl
  · rw [State.scExecute_of_fail ha (by simp [equalsValue, hv])]
  · rw [State.scExecute_of_no_ack ha]

end

/-! ### Frames -/

section
variable {i : Instr} {s t : State}

/-- Every way a tick of a CSR instruction goes: nothing, a DECODE tick, or an EXECUTE tick (R158 to R164). -/
theorem exec_cases_csr (hi : i.isa = .csr) (h : exec i s = .next t) :
    t = s ∨ (s.csr.fsm = .decode ∧ ∃ a next, t = s.csrDispatch a next) ∨
    (s.csr.executing = true ∧ ∃ test event, t = s.csrExecute test event) := by
  cases i with
  | csrEnd =>
    simp only [exec, execCsrEnd] at h
    split at h <;> cases h
    · exact .inr (.inl ⟨‹_›, _, _, rfl⟩)
    all_goals exact .inl rfl
  | csrWrite | readUntil0 | readUntil1 =>
    simp only [exec, execCsrWrite, execReadUntil0, execReadUntil1] at h
    split at h <;> cases h
    · exact .inr (.inl ⟨‹_›, _, _, rfl⟩)
    · exact .inr (.inr ⟨Sequencer.executing_of_execute ‹_›, _, _, rfl⟩)
    all_goals exact .inl rfl
  | scEnd | scWrite | scWait => cases hi

/-- Every way a tick of a serial-config instruction goes: nothing, a DECODE tick, or an EXECUTE tick (R186 to R188). -/
theorem exec_cases_sc (hi : i.isa = .sc) (h : exec i s = .next t) :
    t = s ∨ (s.sc.fsm = .decode ∧ ∃ a next, t = s.scDispatch a next) ∨
    (s.sc.executing = true ∧ ∃ test event, t = s.scExecute test event) := by
  cases i with
  | scEnd =>
    simp only [exec, execScEnd] at h
    split at h <;> cases h
    · exact .inr (.inl ⟨‹_›, _, _, rfl⟩)
    all_goals exact .inl rfl
  | scWrite | scWait =>
    simp only [exec, execScWrite, execScWait] at h
    split at h <;> cases h
    · exact .inr (.inl ⟨‹_›, _, _, rfl⟩)
    · exact .inr (.inr ⟨Sequencer.executing_of_execute ‹_›, _, _, rfl⟩)
    all_goals exact .inl rfl
  | csrEnd | csrWrite | readUntil0 | readUntil1 => cases hi

end

/-- What an EXECUTE tick of either ISA may change: nothing without `ack`; with it one transaction is added, and the
cursor moves only where FETCH is next (R159 to R164). -/
theorem executeTick_frame {κ : Type} (len : Nat) (bus : BusIn) (test : BusData → Bool) (event : BusData → BusEvent)
    (q : Sequencer κ) (trace : List BusEvent) (r : Sequencer κ × List BusEvent)
    (hr : executeTick len bus test event q trace = r) :
    r.1.ir = q.ir ∧ r.1.adrReg = q.adrReg ∧ (r.1.cursor ≠ q.cursor → bus.ack = true ∧ r.1.fsm = .fetch) ∧
    (r.2 = trace ∨ bus.ack = true ∧ ∃ e, r.2 = trace ++ [e]) := by
  subst hr
  rcases executeTick_cases len bus test event q trace with ⟨-, e⟩ | ⟨ha, -, e⟩ | ⟨ha, -, e⟩ <;> rw [e]
  · exact ⟨rfl, rfl, fun hne => absurd rfl hne, .inl rfl⟩
  · exact ⟨rfl, rfl, fun _ => ⟨ha, rfl⟩, .inr ⟨ha, _, rfl⟩⟩
  · exact ⟨rfl, rfl, fun hne => absurd rfl hne, .inr ⟨ha, _, rfl⟩⟩

/-- Settles O18: a DECODE tick writes `fsm` and `adr_reg`, an EXECUTE tick what `executeTick_frame` allows. -/
theorem csrInstructionFrame : Obligations.CsrInstructionFrame := by
  intro i s t hi h
  rcases exec_cases_csr hi h with rfl | ⟨hf, a, next, rfl⟩ | ⟨hx, test, event, rfl⟩
  · exact ⟨rfl, rfl, fun hne => absurd rfl hne, fun hne => absurd rfl hne, .inl rfl⟩
  · exact ⟨rfl, rfl, fun hne => absurd rfl hne, fun _ => hf, .inl rfl⟩
  · obtain ⟨hir, hadr, hcursor, htrace⟩ := executeTick_frame s.csrLen s.now.csrBus test event s.csr s.csrTrace _ rfl
    exact ⟨rfl, hir, fun hne => ⟨hx, hcursor hne⟩, fun hne => absurd hadr hne, htrace.imp_right fun e => ⟨hx, e⟩⟩

/-- Settles O19: the same for the serial-config sequencer. -/
theorem scInstructionFrame : Obligations.ScInstructionFrame := by
  intro i s t hi h
  rcases exec_cases_sc hi h with rfl | ⟨hf, a, next, rfl⟩ | ⟨hx, test, event, rfl⟩
  · exact ⟨rfl, rfl, fun hne => absurd rfl hne, fun hne => absurd rfl hne, .inl rfl⟩
  · exact ⟨rfl, rfl, fun hne => absurd rfl hne, fun _ => hf, .inl rfl⟩
  · obtain ⟨hir, hadr, hcursor, htrace⟩ := executeTick_frame s.scLen s.now.scBus test event s.sc s.scTrace _ rfl
    exact ⟨rfl, hir, fun hne => ⟨hx, hcursor hne⟩, fun hne => absurd hadr hne, htrace.imp_right fun e => ⟨hx, e⟩⟩

end Sys2Proof.Machine
end

section
/-! SUPPORT. A sequencer of either ISA in a step, as a function of its own registers, program, clock, reset and bus
inputs (44_sequencer_csr.md sections 1 to 4, 20_memory.md section 2). -/

namespace Sys2Proof.Machine

/-! ### The skeleton the two ISAs share -/

/-- What tells the two sequencers apart: the state DECODE goes to, and each EXECUTE state's test, transaction and
direction (R33, R158 to R164, R186 to R188). -/
structure Dialect (κ : Type) where
  isa : Isa
  next : Word → Fsm κ
  test : κ → Word → BusData → Bool
  event : κ → BusAddr → Word → BusData → BusEvent
  isWrite : κ → Bool

/-- The CSR sequencer's. -/
def csrDialect : Dialect CsrKind where
  isa := .csr
  next := csrNextState
  test := CsrKind.test
  event := CsrKind.event
  isWrite := CsrKind.isWrite

/-- The serial-config sequencer's. -/
def scDialect : Dialect ScKind where
  isa := .sc
  next := scNextState
  test := ScKind.test
  event := ScKind.event
  isWrite := ScKind.isWrite

section
variable {κ : Type} (D : Dialect κ)

/-- A tick of a started sequencer on a program that has a word at its cursor (R166, R192). -/
def Dialect.tick (ws : List Word) (bus : BusIn) (q : Sequencer κ) (trace : List BusEvent) :
    Sequencer κ × List BusEvent :=
  match q.fsm with
  | .fetch => (q.fetched (ws.getD q.cursor 0#16), trace)
  | .decode => (q.dispatched (adrField q.ir) (D.next q.ir), trace)
  | .execute k => executeTick ws.length bus (D.test k q.ir) (D.event k q.adrReg q.ir) q trace
  | .ended => (q, trace)

/-- What a step leaves in a sequencer and its trace: by the edge and the reset of its domain (R20, R220), and the tick
of one whose program is constructed (R224). -/
inductive Dialect.Stepped (program : Option (List Word)) (edge rst : Bool) (bus : BusIn) (q : Sequencer κ)
    (trace : List BusEvent) : Sequencer κ → List BusEvent → Prop
  | hold : edge = false → Stepped program edge rst bus q trace q trace
  | reset (time : Nat) : edge = true → rst = true →
      Stepped program edge rst bus q trace (Sequencer.resetAt D.isa time) []
  | idle : edge = true → rst = false → program = none → Stepped program edge rst bus q trace q trace
  | tick (ws : List Word) : edge = true → rst = false → program = some ws →
      Stepped program edge rst bus q trace (D.tick ws bus q trace).1 (D.tick ws bus q trace).2

variable {D}
variable {ws : List Word} {bus : BusIn} {q : Sequencer κ} {trace : List BusEvent}

theorem Dialect.tick_of_fetch {w : Word} (hf : q.fsm = .fetch) (hw : ws[q.cursor]? = some w) :
    D.tick ws bus q trace = (q.fetched w, trace) := by
  simp [Dialect.tick, hf, hw]

theorem Dialect.tick_of_decode (hf : q.fsm = .decode) :
    D.tick ws bus q trace = (q.dispatched (adrField q.ir) (D.next q.ir), trace) := by
  simp [Dialect.tick, hf]

theorem Dialect.tick_of_execute {k : κ} (hf : q.fsm = .execute k) :
    D.tick ws bus q trace = executeTick ws.length bus (D.test k q.ir) (D.event k q.adrReg q.ir) q trace := by
  simp [Dialect.tick, hf]

theorem Dialect.tick_of_ended (hf : q.fsm = .ended) : D.tick ws bus q trace = (q, trace) := by
  simp [Dialect.tick, hf]

theorem Dialect.Stepped.of_tick {program : Option (List Word)} {edge rst : Bool} {q' : Sequencer κ}
    {trace' : List BusEvent} (he : edge = true) (hr : rst = false) (hp : program = some ws)
    (h : D.tick ws bus q trace = (q', trace')) : D.Stepped program edge rst bus q trace q' trace' := by
  have htick := Dialect.Stepped.tick (D := D) (bus := bus) (q := q) (trace := trace) ws he hr hp
  rwa [h] at htick

/-- A step that does nothing at a sequencer: no edge, or a tick of one that has not started or has ended. -/
theorem Dialect.Stepped.of_nothing {program : Option (List Word)} {edge rst : Bool}
    (h : edge = false ∨ rst = false ∧ (program = none ∨ q.fsm = .ended)) :
    D.Stepped program edge rst bus q trace q trace := by
  cases edge with
  | false => exact .hold rfl
  | true =>
    obtain ⟨hr, hp⟩ := h.resolve_left (by decide)
    cases program with
    | none => exact .idle rfl hr rfl
    | some ws => exact .of_tick rfl hr rfl (Dialect.tick_of_ended (hp.resolve_left nofun))

/-! ### What the skeleton says of any step -/

section
variable {program : Option (List Word)} {edge rst : Bool} {q' : Sequencer κ} {trace' : List BusEvent}

theorem Dialect.Stepped.of_ended (h : D.Stepped program edge rst bus q trace q' trace') (hf : q.fsm = .ended)
    (hno : (edge && rst) = false) : q' = q ∧ trace' = trace := by
  cases h with
  | hold | idle => exact ⟨rfl, rfl⟩
  | reset _ he hr => rw [he, hr] at hno; cases hno
  | tick => rw [Dialect.tick_of_ended hf]; exact ⟨rfl, rfl⟩

/-- Every way a tick moves the cursor: not at all, or by the advance of an acknowledged EXECUTE (R160). -/
theorem Dialect.tick_cursor :
    (D.tick ws bus q trace).1.cursor = q.cursor ∨
      q.executing = true ∧ bus.ack = true ∧ (D.tick ws bus q trace).1 = q.advanced ws.length := by
  cases hf : q.fsm with
  | fetch | decode | ended => simp [Dialect.tick, hf]
  | execute k =>
    rw [Dialect.tick_of_execute hf]
    rcases executeTick_cases ws.length bus (D.test k q.ir) (D.event k q.adrReg q.ir) q trace with
      ⟨-, e⟩ | ⟨ha, -, e⟩ | ⟨-, -, e⟩ <;> rw [e]
    · exact .inl rfl
    · exact .inr ⟨Sequencer.executing_of_execute hf, ha, rfl⟩
    · exact .inl rfl

/-- Every way a step moves the cursor: not at all, by reset, or by the advance of an acknowledged EXECUTE. -/
theorem Dialect.Stepped.cursor_cases (h : D.Stepped program edge rst bus q trace q' trace') :
    q'.cursor = q.cursor ∨ (edge = true ∧ rst = true ∧ q'.cursor = 0) ∨
      (q.executing = true ∧ bus.ack = true ∧ ∃ ws, program = some ws ∧ q' = q.advanced ws.length) := by
  cases h with
  | hold | idle => exact .inl rfl
  | reset _ he hr => exact .inr (.inl ⟨he, hr, rfl⟩)
  | tick ws _ _ hp => exact Dialect.tick_cursor.imp_right fun ⟨hx, ha, e⟩ => .inr ⟨hx, ha, ws, hp, e⟩

/-- A tick from one EXECUTE state to an EXECUTE state leaves every register (R159, R163, R164, R188). -/
theorem Dialect.tick_of_executing (hq : q.executing = true) (hq' : (D.tick ws bus q trace).1.executing = true) :
    (D.tick ws bus q trace).1 = q := by
  obtain ⟨k, hf⟩ := Sequencer.executing_iff.1 hq
  rw [Dialect.tick_of_execute hf] at hq' ⊢
  rcases executeTick_cases ws.length bus (D.test k q.ir) (D.event k q.adrReg q.ir) q trace with
    ⟨-, e⟩ | ⟨-, -, e⟩ | ⟨-, -, e⟩ <;> rw [e] at hq' ⊢
  cases hq'

theorem Dialect.Stepped.of_executing (h : D.Stepped program edge rst bus q trace q' trace')
    (hq : q.executing = true) (hq' : q'.executing = true) : q' = q := by
  cases h with
  | hold | idle => rfl
  | reset => cases hq'
  | tick => exact Dialect.tick_of_executing hq hq'

/-- The transaction of an EXECUTE state is the one its bus outputs carry. -/
def Dialect.EventOnBus (D : Dialect κ) : Prop :=
  ∀ (k : κ) (a : BusAddr) (w : Word) (v : BusData),
    D.event k a w v = if D.isWrite k then .wrote a (immField w) else .read a v

theorem csrDialect_eventOnBus : csrDialect.EventOnBus := fun k _ _ _ => by cases k <;> rfl

theorem scDialect_eventOnBus : scDialect.EventOnBus := fun k _ _ _ => by cases k <;> rfl

/-- A tick adds to the trace the transaction on the bus when `cyc_stb` and `ack` are 1, and else nothing (R54). -/
theorem Dialect.tick_trace (hD : D.EventOnBus) (time : Nat) :
    (D.tick ws bus q trace).2 =
      if (busOutOf D.isa D.isWrite time q).cycStb && bus.ack
      then trace ++ [busEvent (busOutOf D.isa D.isWrite time q) bus] else trace := by
  rw [busOutOf_cycStb]
  cases hf : q.fsm with
  | fetch | decode | ended => simp [Dialect.tick, Sequencer.executing, hf]
  | execute k =>
    have hevent : D.event k q.adrReg q.ir bus.datR = busEvent (busOutOf D.isa D.isWrite time q) bus := by
      rw [hD, busOutOf_execute D.isa D.isWrite time hf, busEvent]
      cases D.isWrite k <;> rfl
    rw [Sequencer.executing_of_execute hf, Dialect.tick_of_execute hf, ← hevent]
    rcases executeTick_cases ws.length bus (D.test k q.ir) (D.event k q.adrReg q.ir) q trace with
      ⟨ha, e⟩ | ⟨ha, -, e⟩ | ⟨ha, -, e⟩ <;> rw [e, ha] <;> rfl

theorem Dialect.Stepped.trace_eq (h : D.Stepped program edge rst bus q trace q' trace') (hD : D.EventOnBus)
    (time : Nat) (hp : program.isSome = true) (he : edge = true) (hr : rst = false) :
    trace' =
      if (busOutOf D.isa D.isWrite time q).cycStb && bus.ack
      then trace ++ [busEvent (busOutOf D.isa D.isWrite time q) bus] else trace := by
  cases h with
  | hold he' => rw [he] at he'; cases he'
  | reset _ _ hr' => rw [hr] at hr'; cases hr'
  | idle _ _ hp' => rw [hp'] at hp; cases hp
  | tick => exact Dialect.tick_trace hD time

/-- What a step leaves is fixed by what the skeleton names, but for `ir` under reset. -/
theorem Dialect.Stepped.unique {q'' : Sequencer κ} {trace'' : List BusEvent}
    (h : D.Stepped program edge rst bus q trace q' trace') (h' : D.Stepped program edge rst bus q trace q'' trace'') :
    q'.fsm = q''.fsm ∧ q'.cursor = q''.cursor ∧ q'.adrReg = q''.adrReg ∧ trace' = trace'' ∧
      ((edge && rst) = false → q'.ir = q''.ir) := by
  cases h with
  | hold he =>
    cases h' with
    | hold => simp
    | reset _ he' | idle he' | tick _ he' => simp [he] at he'
  | reset _ he hr =>
    cases h' with
    | reset => simp [he, hr, Sequencer.resetAt]
    | hold he' => simp [he] at he'
    | idle _ hr' | tick _ _ hr' => simp [hr] at hr'
  | idle he hr hp =>
    cases h' with
    | idle => simp
    | hold he' => simp [he] at he'
    | reset _ _ hr' => simp [hr] at hr'
    | tick _ _ _ hp' => simp [hp] at hp'
  | tick ws he hr hp =>
    cases h' with
    | tick ws' _ _ hp' =>
      cases hp.symm.trans hp'
      simp
    | hold he' => simp [he] at he'
    | reset _ _ hr' => simp [hr] at hr'
    | idle _ _ hp' => simp [hp] at hp'

end

end

section
variable {s t : State}

/-- A step leaves in the CSR sequencer what the skeleton says. -/
theorem step_csr (h : step s = .next t) :
    csrDialect.Stepped s.params.csrProgram (s.edge s.params.clocks.csr) (s.rst s.params.clocks.csr) s.now.csrBus s.csr
      s.csrTrace t.csr t.csrTrace := by
  obtain ⟨-, ⟨u, hu, hcsr, htrace⟩, -⟩ := step_sequencers h
  rw [hcsr, htrace]
  rcases State.csrTick_cases hu with ⟨rfl, hnothing⟩ | ⟨he, hr, rfl⟩ | ⟨he, hr, ws, hp, hwork⟩
  · exact .of_nothing hnothing
  · exact .reset s.time he hr
  · rcases hwork with ⟨hf, w, hw, rfl⟩ | ⟨hf, rfl⟩ | ⟨k, hf, rfl⟩
    · exact .of_tick he hr hp (Dialect.tick_of_fetch hf hw)
    · exact .of_tick he hr hp (Dialect.tick_of_decode hf)
    · rw [State.csrExecute_csr, State.csrExecute_csrTrace, State.csrLen_eq hp]
      exact .of_tick he hr hp (Dialect.tick_of_execute hf)

/-- A step leaves in the serial-config sequencer what the skeleton says. -/
theorem step_sc (h : step s = .next t) :
    scDialect.Stepped s.params.scProgram (s.edge s.params.clocks.sc) (s.rst s.params.clocks.sc) s.now.scBus s.sc
      s.scTrace t.sc t.scTrace := by
  obtain ⟨-, -, u, hu, hsc, htrace⟩ := step_sequencers h
  rw [hsc, htrace]
  rcases State.scTick_cases hu with ⟨rfl, hnothing⟩ | ⟨he, hr, rfl⟩ | ⟨he, hr, ws, hp, hwork⟩
  · exact .of_nothing hnothing
  · exact .reset s.time he hr
  · rcases hwork with ⟨hf, w, hw, rfl⟩ | ⟨hf, -, rfl⟩ | ⟨k, hf, rfl⟩
    · exact .of_tick he hr hp (Dialect.tick_of_fetch hf hw)
    · exact .of_tick he hr hp (Dialect.tick_of_decode hf)
    · rw [State.scExecute_sc, State.scExecute_scTrace, State.scLen_eq hp]
      exact .of_tick he hr hp (Dialect.tick_of_execute hf)

end

/-! ### Both sequencers -/

/-- Settles O23: END is a state in which a tick does nothing. -/
theorem endIsTerminal : Obligations.EndIsTerminal := by
  refine ⟨fun s t h hf hno => ?_, fun s t h hf hno => ?_⟩
  · obtain ⟨hcsr, htrace⟩ := (step_csr h).of_ended hf hno
    refine ⟨hcsr, htrace, ?_⟩
    rw [State.csrBusOut, busOutOf_cycStb, hcsr, Sequencer.executing, hf]
  · obtain ⟨hsc, htrace⟩ := (step_sc h).of_ended hf hno
    refine ⟨hsc, htrace, ?_⟩
    rw [State.scBusOut, busOutOf_cycStb, hsc, Sequencer.executing, hf]

/-- Settles O25: the skeleton names only what the two states agree in. -/
theorem sequencersShareNothing : Obligations.SequencersShareNothing := by
  refine ⟨fun s u s' u' hs hu hq htrace hp he hr hbus => ?_, fun s u s' u' hs hu hq htrace hp he hr hbus => ?_⟩
  · have h := step_csr hs
    rw [hq, htrace, hp, he, hr, hbus] at h
    rw [he, hr]
    exact h.unique (step_csr hu)
  · have h := step_sc hs
    rw [hq, htrace, hp, he, hr, hbus] at h
    rw [he, hr]
    exact h.unique (step_sc hu)

/-- Settles O27: from EXECUTE to EXECUTE every register stays, and the request is a function of the registers. -/
theorem requestHeldStable : Obligations.RequestHeldStable := by
  refine ⟨fun s t h hs ht => ?_, fun s t h hs ht => ?_⟩
  · rw [State.csrBusOut, busOutOf_cycStb] at hs ht
    have hheld : t.csrBusOut = s.csrBusOut := by
      rw [State.csrBusOut, (step_csr h).of_executing hs ht]
      exact busOutOf_held _ _ hs _ _
    rw [hheld]
    exact ⟨rfl, rfl, rfl⟩
  · rw [State.scBusOut, busOutOf_cycStb] at hs ht
    have hheld : t.scBusOut = s.scBusOut := by
      rw [State.scBusOut, (step_sc h).of_executing hs ht]
      exact busOutOf_held _ _ hs _ _
    rw [hheld]
    exact ⟨rfl, rfl, rfl⟩

/-- Settles O28: an EXECUTE state is one with a request, and its transaction the one on the bus. -/
theorem transactionCompletesOnAck : Obligations.TransactionCompletesOnAck :=
  ⟨fun s _ h hp he hr => (step_csr h).trace_eq csrDialect_eventOnBus s.time hp he hr,
    fun s _ h hp he hr => (step_sc h).trace_eq scDialect_eventOnBus s.time hp he hr⟩

/-- Settles O26: FETCH overwrites `ir`, and makes no request. -/
theorem irIsWrittenBeforeRead : Obligations.IrIsWrittenBeforeRead := by
  refine ⟨fun ws s w hf => ⟨?_, ?_⟩, fun ws s w hf => ⟨?_, ?_⟩⟩
  · simp only [State.csrRun, hf, State.csrFetch]
    cases ws[s.csr.cursor]? <;> rfl
  · rw [State.csrBusOut, busOutOf_cycStb, Sequencer.executing_of_fetch hf]
  · simp only [State.scRun, hf, State.scFetch]
    cases ws[s.sc.cursor]? <;> rfl
  · rw [State.scBusOut, busOutOf_cycStb, Sequencer.executing_of_fetch hf]

/-- Settles O24: the advance is that of an EXECUTE state, which is not at the last word, so it does not wrap. -/
theorem cursorMovesOnlyByAdvance : Obligations.CursorMovesOnlyByAdvance := by
  refine ⟨fun s t hinv h => (step_csr h).cursor_cases.imp_right (Or.imp_right ?_),
    fun s t hinv h => (step_sc h).cursor_cases.imp_right (Or.imp_right ?_)⟩
  · rintro ⟨hx, ha, ws, hp, hadvanced⟩
    obtain ⟨k, hf⟩ := Sequencer.executing_iff.1 hx
    have hlt := hinv.sequencersFit.csr_succ_lt hp hf
    rw [hadvanced, Sequencer.advanced_cursor_of_lt hlt, State.csrLen_eq hp]
    exact ⟨hx, ha, rfl, rfl, hlt⟩
  · rintro ⟨hx, ha, ws, hp, hadvanced⟩
    obtain ⟨k, hf⟩ := Sequencer.executing_iff.1 hx
    have hlt := hinv.sequencersFit.sc_succ_lt hp hf
    rw [hadvanced, Sequencer.advanced_cursor_of_lt hlt, State.scLen_eq hp]
    exact ⟨hx, ha, rfl, rfl, hlt⟩

/-! ### FETCH and the decoded instruction -/

section
variable {s : State} {ws : List Word}

theorem State.csrTick_of_running (hp : s.params.csrProgram = some ws) (he : s.edge s.params.clocks.csr = true)
    (hr : s.rst s.params.clocks.csr = false) : s.csrTick = s.csrRun ws := by
  rw [State.csrTick, State.clocked_of_tick he hr, hp]

theorem State.scTick_of_running (hp : s.params.scProgram = some ws) (he : s.edge s.params.clocks.sc = true)
    (hr : s.rst s.params.clocks.sc = false) : s.scTick = s.scRun ws := by
  rw [State.scTick, State.clocked_of_tick he hr, hp]

/-- From DECODE on, the CSR sequencer's tick is the one of the instruction in `ir` (R166). -/
theorem State.csrRun_eq_exec {i : Instr} {program : Option (List Word)}
    (h : s.csr.WF .csr CsrKind.instr .csrEnd program) (hf : s.csr.fsm ≠ .fetch) (hi : decode .csr s.csr.ir = .ok i) :
    s.csrRun ws = exec i s := by
  cases hfsm : s.csr.fsm with
  | fetch => exact absurd hfsm hf
  | decode =>
    cases hi
    simp only [State.csrRun, hfsm]
  | execute k =>
    cases hi.symm.trans (h.kind k hfsm).1
    simp only [State.csrRun, hfsm]
  | ended =>
    cases hi.symm.trans (h.ended hfsm)
    simp only [State.csrRun, exec, execCsrEnd, hfsm]

/-- From DECODE on, the serial-config sequencer's tick is the one of the instruction in `ir` (R192). -/
theorem State.scRun_eq_exec {i : Instr} {program : Option (List Word)} (h : s.sc.WF .sc ScKind.instr .scEnd program)
    (hf : s.sc.fsm ≠ .fetch) (hi : decode .sc s.sc.ir = .ok i) : s.scRun ws = exec i s := by
  cases hfsm : s.sc.fsm with
  | fetch => exact absurd hfsm hf
  | decode =>
    have hdecode : decodeSc s.sc.ir = .ok i := hi
    simp only [State.scRun, hfsm, hdecode]
  | execute k =>
    cases hi.symm.trans (h.kind k hfsm).1
    simp only [State.scRun, hfsm]
  | ended =>
    cases hi.symm.trans (h.ended hfsm)
    simp only [State.scRun, exec, execScEnd, hfsm]

end

/-- Settles O20: the cursor of a legal machine is in its program, so the tick finds a word, and the step completes. -/
theorem fetchTick : Obligations.FetchTick := by
  refine ⟨fun ws w s hf hw => State.csrRun_fetch hf hw, fun ws w s hf hw => State.scRun_fetch hf hw,
    fun s ws hinv hp he hr hf => ?_, fun s ws hinv hp he hr hf => ?_⟩
  · have hw := List.getElem?_eq_getElem (hinv.csr.inProgram ws hp)
    obtain ⟨t, ht⟩ := exists_step hinv.sequencersFit
    obtain ⟨-, ⟨u, hu, hcsr, htrace⟩, -⟩ := step_sequencers ht
    rw [State.csrTick_of_running hp he hr, State.csrRun_fetch hf hw] at hu
    cases hu
    exact ⟨_, t, hw, ht, hcsr, htrace⟩
  · have hw := List.getElem?_eq_getElem (hinv.sc.inProgram ws hp)
    obtain ⟨t, ht⟩ := exists_step hinv.sequencersFit
    obtain ⟨-, -, u, hu, hsc, htrace⟩ := step_sequencers ht
    rw [State.scTick_of_running hp he hr, State.scRun_fetch hf hw] at hu
    cases hu
    exact ⟨_, t, hw, ht, hsc, htrace⟩

theorem step_of_legal {s : State} (h : refusalOf s.params = none) : step s = s.instant := by
  rw [step, h]

/-- Settles O21: `ir` holds the word at the cursor, and an EXECUTE or END state is the word's own; the CSR part leaves
what the serial-config part depends on. -/
theorem stepRunsDecodedInstruction : Obligations.StepRunsDecodedInstruction := by
  refine ⟨fun s ws w i hinv hp he hr hf hw hi => ?_, fun s ws w i hinv hp he hr hf hw hi => ?_⟩
  · cases hw.symm.trans (hinv.csr.holds ws hp hf)
    rw [step_of_legal hinv.legal, State.instant, State.csrTick_of_running hp he hr,
      State.csrRun_eq_exec hinv.csr hf hi]
  · cases hw.symm.trans (hinv.sc.holds ws hp hf)
    obtain ⟨s1, h1⟩ := State.exists_csrTick hinv.sequencersFit
    have hsc : s1.scTick = exec i s1 := by
      rw [State.csrTick_frame h1]
      refine (State.scTick_of_running (s := { s with csr := s1.csr, csrTrace := s1.csrTrace }) hp he hr).trans ?_
      exact State.scRun_eq_exec hinv.sc hf hi
    rw [step_of_legal hinv.legal, State.instant, h1, andThen, andThen, hsc]

end Sys2Proof.Machine
end

section
/-! SUPPORT. Polls (44_sequencer_csr.md sections 1 and 5, 45_sequencer_serial_config.md sections 2 and 4): a scripted
run of acknowledged reads up to the first that passes. -/

namespace Sys2Proof.Machine

/-! ### One acknowledged tick of an EXECUTE state -/

section
variable {s t : State}

/-- A started sequencer is one whose program is constructed. -/
theorem Sequencer.WF.exists_program {κ : Type} {isa : Isa} {instrOf : κ → Word → Instr} {endInstr : Instr}
    {program : Option (List Word)} {q : Sequencer κ} (h : q.WF isa instrOf endInstr program) (hf : q.fsm ≠ .fetch) :
    ∃ ws, program = some ws := by
  cases program with
  | none => exact absurd (h.idle rfl).1 hf
  | some ws => exact ⟨ws, rfl⟩

theorem step_csr_of_execute {k : CsrKind} (hfit : s.SequencersFit) (ht : step s = .next t)
    (hf : s.csr.fsm = .execute k) (he : s.edge s.params.clocks.csr = true) (hr : s.rst s.params.clocks.csr = false) :
    t.csr = (s.csrExecute (k.test s.csr.ir) (k.event s.csr.adrReg s.csr.ir)).csr ∧
      t.csrTrace = (s.csrExecute (k.test s.csr.ir) (k.event s.csr.adrReg s.csr.ir)).csrTrace := by
  obtain ⟨ws, hp⟩ := hfit.csr.exists_program (by simp [hf])
  obtain ⟨-, ⟨u, hu, hcsr, htrace⟩, -⟩ := step_sequencers ht
  rw [State.csrTick_of_running hp he hr, State.csrRun_execute ws hf] at hu
  cases hu
  exact ⟨hcsr, htrace⟩

theorem step_sc_of_execute {k : ScKind} (hfit : s.SequencersFit) (ht : step s = .next t)
    (hf : s.sc.fsm = .execute k) (he : s.edge s.params.clocks.sc = true) (hr : s.rst s.params.clocks.sc = false) :
    t.sc = (s.scExecute (k.test s.sc.ir) (k.event s.sc.adrReg s.sc.ir)).sc ∧
      t.scTrace = (s.scExecute (k.test s.sc.ir) (k.event s.sc.adrReg s.sc.ir)).scTrace := by
  obtain ⟨ws, hp⟩ := hfit.sc.exists_program (by simp [hf])
  obtain ⟨-, -, u, hu, hsc, htrace⟩ := step_sequencers ht
  rw [State.scTick_of_running hp he hr, State.scRun_execute ws hf] at hu
  cases hu
  exact ⟨hsc, htrace⟩

/-- The advance of an EXECUTE state of a legal machine does not wrap. -/
theorem State.csr_advanced_eq {k : CsrKind} (hfit : s.SequencersFit) (hf : s.csr.fsm = .execute k) :
    s.csr.advanced s.csrLen = { s.csr with fsm := .fetch, cursor := s.csr.cursor + 1 } := by
  obtain ⟨ws, hp⟩ := hfit.csr.exists_program (by simp [hf])
  rw [Sequencer.advanced, State.csrLen_eq hp, Nat.mod_eq_of_lt (lt_two_pow_cursorWidth (hfit.csr_succ_lt hp hf))]

theorem State.sc_advanced_eq {k : ScKind} (hfit : s.SequencersFit) (hf : s.sc.fsm = .execute k) :
    s.sc.advanced s.scLen = { s.sc with fsm := .fetch, cursor := s.sc.cursor + 1 } := by
  obtain ⟨ws, hp⟩ := hfit.sc.exists_program (by simp [hf])
  rw [Sequencer.advanced, State.scLen_eq hp, Nat.mod_eq_of_lt (lt_two_pow_cursorWidth (hfit.sc_succ_lt hp hf))]

/-! ### The scripted instants -/

theorem State.now_of_script_cons {x : Instant} {xs : List Instant} (h : s.script = x :: xs) : s.now = x := by
  rw [State.now, h]

theorem State.edge_of_acked {d : Domain} {x : Instant} {v : BusData}
    (h : s.now = ackInstant d x v ∨ s.now = scAckInstant d x v) : s.edge d = true ∧ s.rst d = false := by
  rw [State.edge, State.rst]
  rcases h with h | h <;> rw [h] <;> simp [ackInstant, scAckInstant]

end

/-! ### The run -/

/-- A legal machine runs through a script of failing inputs and one that passes: `P reads` holds along the failing ones,
`Q reads` after the one that passes, where `reads` are the inputs so far. -/
theorem run_until_pass {α : Type} {P Q : List α → State → Prop} {f : α → Instant} {bad : α → Prop} {last : α}
    (hfail : ∀ reads v u u', u.SequencersFit → step u = .next u' → u.now = f v → bad v → P reads u →
      P (reads ++ [v]) u')
    (hpass : ∀ reads u u', u.SequencersFit → step u = .next u' → u.now = f last → P reads u → Q (reads ++ [last]) u') :
    ∀ (fails reads : List α) (s : State), s.SequencersFit → P reads s → s.script = (fails ++ [last]).map f →
      (∀ v ∈ fails, bad v) →
      ∃ t : State, Host.Core.run core (fails.length + 1) s = .next t ∧ Q (reads ++ (fails ++ [last])) t
  | [], reads, s, hfit, hP, hscript, _ => by
    obtain ⟨t, ht⟩ := exists_step hfit
    exact ⟨t, run_succ_of_step 0 ht, hpass reads s t hfit ht (State.now_of_script_cons hscript) hP⟩
  | v :: fails, reads, s, hfit, hP, hscript, hbad => by
    obtain ⟨u, hu⟩ := exists_step hfit
    obtain ⟨-, -, -, -, -, htail⟩ := step_streams hu
    have hPu := hfail reads v s u hfit hu (State.now_of_script_cons hscript) (hbad v List.mem_cons_self) hP
    obtain ⟨t, hrun, hQ⟩ := run_until_pass hfail hpass fails (reads ++ [v]) u (hfit.of_step hu) hPu
      (by rw [htail, hscript]; rfl) (fun w hw => hbad w (List.mem_cons_of_mem v hw))
    exact ⟨t, (run_succ_of_step _ hu).trans hrun, by simpa using hQ⟩

/-- `u` is `s` after its CSR sequencer, at the registers `q`, has read the values `reads` from `adr_reg`. -/
def State.CsrHasRead (s : State) (q : Sequencer CsrKind) (reads : List BusData) (u : State) : Prop :=
  u.params = s.params ∧ u.csr = q ∧ u.csrTrace = s.csrTrace ++ reads.map (.read s.csr.adrReg)

/-- `u` is `s` after its serial-config sequencer, at the registers `q`, has read the values `reads` from `adr_reg`. -/
def State.ScHasRead (s : State) (q : Sequencer ScKind) (reads : List BusData) (u : State) : Prop :=
  u.params = s.params ∧ u.sc = q ∧ u.scTrace = s.scTrace ++ reads.map (.read s.sc.adrReg)

/-- The registers an acknowledged tick of an EXECUTE state leaves: those of the next instruction if the test passed. -/
def Sequencer.polled {κ : Type} (q : Sequencer κ) (passed : Bool) : Sequencer κ :=
  if passed then { q with fsm := .fetch, cursor := q.cursor + 1 } else q

section
variable {s u u' : State} {x : Instant} {reads : List BusData} {v : BusData}

/-- One more acknowledged tick of a CSR poll. -/
theorem State.CsrHasRead.step {k : CsrKind} (hk : k.isWrite = false) (hf : s.csr.fsm = .execute k)
    (h : s.CsrHasRead s.csr reads u) (hfit : u.SequencersFit) (hu : step u = .next u')
    (hnow : u.now = ackInstant s.params.clocks.csr x v) :
    s.CsrHasRead (s.csr.polled (k.test s.csr.ir v)) (reads ++ [v]) u' := by
  obtain ⟨hparams, hcsr, htrace⟩ := h
  obtain ⟨hparams', -, -⟩ := step_sequencers hu
  obtain ⟨he, hr⟩ := State.edge_of_acked (.inl hnow)
  have hfu : u.csr.fsm = .execute k := hcsr ▸ hf
  obtain ⟨hcsr', htrace'⟩ := step_csr_of_execute hfit hu hfu (hparams ▸ he) (hparams ▸ hr)
  have hack : u.now.csrBus.ack = true := by rw [hnow]; rfl
  have hv : u.now.csrBus.datR = v := by rw [hnow]; rfl
  have hread : k.event s.csr.adrReg s.csr.ir = .read s.csr.adrReg := by
    cases k with
    | write => cases hk
    | readUntil0 | readUntil1 => rfl
  rw [hcsr, hread] at hcsr' htrace'
  cases htest : k.test s.csr.ir v with
  | true =>
    rw [State.csrExecute_of_pass hack (hv ▸ htest)] at hcsr' htrace'
    refine ⟨hparams'.trans hparams, hcsr'.trans ?_, htrace'.trans (by simp [htrace, hv])⟩
    exact (State.csr_advanced_eq hfit hfu).trans (by rw [hcsr]; rfl)
  | false =>
    rw [State.csrExecute_of_fail hack (hv ▸ htest)] at hcsr' htrace'
    exact ⟨hparams'.trans hparams, hcsr'.trans hcsr, htrace'.trans (by simp [htrace, hv])⟩

/-- One more acknowledged tick of `sc.Wait`. -/
theorem State.ScHasRead.step (hf : s.sc.fsm = .execute .wait) (h : s.ScHasRead s.sc reads u)
    (hfit : u.SequencersFit) (hu : step u = .next u') (hnow : u.now = scAckInstant s.params.clocks.sc x v) :
    s.ScHasRead (s.sc.polled (equalsValue (immField s.sc.ir) v)) (reads ++ [v]) u' := by
  obtain ⟨hparams, hsc, htrace⟩ := h
  obtain ⟨hparams', -, -⟩ := step_sequencers hu
  obtain ⟨he, hr⟩ := State.edge_of_acked (.inr hnow)
  have hfu : u.sc.fsm = .execute .wait := hsc ▸ hf
  obtain ⟨hsc', htrace'⟩ := step_sc_of_execute hfit hu hfu (hparams ▸ he) (hparams ▸ hr)
  have hack : u.now.scBus.ack = true := by rw [hnow]; rfl
  have hv : u.now.scBus.datR = v := by rw [hnow]; rfl
  rw [hsc, ScKind.test, ScKind.event] at hsc' htrace'
  cases htest : equalsValue (immField s.sc.ir) v with
  | true =>
    rw [State.scExecute_of_pass hack (hv ▸ htest)] at hsc' htrace'
    refine ⟨hparams'.trans hparams, hsc'.trans ?_, htrace'.trans (by simp [htrace, hv])⟩
    exact (State.sc_advanced_eq hfit hfu).trans (by rw [hsc]; rfl)
  | false =>
    rw [State.scExecute_of_fail hack (hv ▸ htest)] at hsc' htrace'
    exact ⟨hparams'.trans hparams, hsc'.trans hsc, htrace'.trans (by simp [htrace, hv])⟩

end

/-- The CSR poll for a bit of this value. -/
def pollKind (polarity : Bool) : CsrKind := if polarity then .readUntil1 else .readUntil0

theorem isWrite_pollKind (polarity : Bool) : (pollKind polarity).isWrite = false := by cases polarity <;> rfl

theorem test_pollKind (polarity : Bool) (w : Word) (v : BusData) :
    (pollKind polarity).test w v = (v.getLsbD (bitField w).toNat == polarity) := by
  cases polarity with
  | true => rw [pollKind, if_pos rfl, CsrKind.test, bitIs1_eq]; simp
  | false => rw [pollKind, if_neg nofun, CsrKind.test, bitIs0_eq_not]; simp

/-- Settles O29: a failing read leaves the registers, and the one that passes advances. -/
theorem pollReadsUntilFirstMatch : Obligations.PollReadsUntilFirstMatch := by
  refine ⟨fun s x polarity fails last hinv hf hscript hfails hlast => ?_,
    fun s x fails hinv hf hscript hfails => ?_⟩
  · have hk := isWrite_pollKind polarity
    obtain ⟨t, hrun, -, hcsr, htrace⟩ := run_until_pass (P := fun reads => s.CsrHasRead s.csr reads)
      (Q := fun reads => s.CsrHasRead (s.csr.polled true) reads)
      (bad := fun v => v.getLsbD (bitField s.csr.ir).toNat ≠ polarity)
      (fun reads v u u' hfit hu hnow hbad h => by
        have h' := h.step hk hf hfit hu hnow
        rwa [test_pollKind, beq_eq_false_iff_ne.2 hbad] at h')
      (fun reads u u' hfit hu hnow h => by
        have h' := h.step hk hf hfit hu hnow
        rwa [test_pollKind, beq_iff_eq.2 hlast] at h')
      fails [] s hinv.sequencersFit ⟨rfl, rfl, (List.append_nil _).symm⟩ hscript hfails
    exact ⟨t, hrun, hcsr, htrace⟩
  · obtain ⟨t, hrun, -, hsc, htrace⟩ := run_until_pass (P := fun reads => s.ScHasRead s.sc reads)
      (Q := fun reads => s.ScHasRead (s.sc.polled true) reads) (bad := fun v => v ≠ immField s.sc.ir)
      (fun reads v u u' hfit hu hnow hbad h => by
        have h' := h.step hf hfit hu hnow
        rwa [equalsValue, beq_eq_false_iff_ne.2 hbad] at h')
      (fun reads u u' hfit hu hnow h => by
        have h' := h.step hf hfit hu hnow
        rwa [equalsValue, beq_self_eq_true] at h')
      fails [] s hinv.sequencersFit ⟨rfl, rfl, (List.append_nil _).symm⟩ hscript hfails
    exact ⟨t, hrun, hsc, htrace⟩

end Sys2Proof.Machine
end

section
/-! SUPPORT. The Encoder: the control symbols (41_encoder.md sections 1 and 2), the running disparity and comma freedom
of a stream (section 3), the lane chain and the latency (section 4). -/

namespace Sys2Proof.Machine

/-! ### Control symbols (R95, R99) -/

/-- Settles O41: by evaluation of the tables. -/
theorem controlCodewords : Obligations.ControlCodewords := by
  unfold Obligations.ControlCodewords
  decide

/-- The code of a control symbol depends on its high three bits alone. -/
theorem encodeSymbol_control_congr {d d' : BitVec 8} (h : d.extractLsb' 5 3 = d'.extractLsb' 5 3) (rd : Bool) :
    encodeSymbol d true rd = encodeSymbol d' true rd := by
  simp [encodeSymbol, encode6, encode4, takesAlternate, h]

/-- Settles O42: the two bytes have the same high three bits. -/
theorem controlSymbolsReduce : Obligations.ControlSymbolsReduce := by
  intro d rd
  apply encodeSymbol_control_congr
  rw [BitVec.extractLsb'_or, extractLsb'_and_of_allOnes (by decide)]
  exact BitVec.or_zero.symm

/-! ### The running disparity (R101) -/

/-- Settles O43: by induction on the stream, each codeword leading from its incoming to its outgoing disparity. -/
theorem runningDisparityBounded : Obligations.RunningDisparityBounded := by
  intro rd stream
  induction stream generalizing rd with
  | nil => intro k lane h; cases h
  | cons sym rest ih =>
    intro k lane h
    have hsym := signOf_encodeSymbol sym.data sym.isControl rd
    cases k with
    | zero =>
      cases h
      simp [encodeLanes, hsym]
    | succ k =>
      have hrest := ih (encodeSymbol sym.data sym.isControl rd).2 k lane h
      rw [← hrest, hsym]
      simp [encodeLanes, add_assoc]

/-! ### Comma freedom (R102) -/

/-- The 7-bit comma sequence whose last five bits are `b`. -/
def commaSequence (b : Bool) : List Bool := [!b, !b, b, b, b, b, b]

/-- A data symbol's codeword in transmission order. -/
def dataBits (d : BitVec 8) (rd : Bool) : List Bool := transmitted (encodeSymbol d false rd).1

/-- The transmitted bits of a stream of data symbols. -/
def dataLine (rd : Bool) (bytes : List (BitVec 8)) : List Bool :=
  (encodeLanes rd (bytes.map fun d => { data := d, isControl := false })).flatMap fun c => transmitted c.1

theorem dataLine_nil (rd : Bool) : dataLine rd [] = [] := rfl

theorem dataLine_cons (rd : Bool) (d : BitVec 8) (bytes : List (BitVec 8)) :
    dataLine rd (d :: bytes) = dataBits d rd ++ dataLine (encodeSymbol d false rd).2 bytes := rfl

/-- No comma sequence lies inside a data codeword. -/
theorem commaSequence_not_infix_dataBits : ∀ (b : Bool) (d : BitVec 8) (rd : Bool),
    ¬ commaSequence b <:+: dataBits d rd := by decide

/-- No data codeword begins with four equal bits, nor with one other and five equal bits, nor with three bits equal to
its incoming disparity. -/
theorem run_not_prefix_dataBits : ∀ (b : Bool) (d : BitVec 8) (rd : Bool),
    ¬ [!b, b, b, b, b, b] <+: dataBits d rd ∧ ¬ [b, b, b, b] <+: dataBits d rd ∧
    (rd = b → ¬ [b, b, b] <+: dataBits d rd) := by decide

/-- No data codeword ends in a comma sequence but for one or two bits, and one that ends in it but for three has its
last bit as outgoing disparity. -/
theorem commaSequence_take_suffix_dataBits : ∀ (b : Bool) (d : BitVec 8) (rd : Bool),
    ¬ [!b, !b, b, b, b, b] <:+ dataBits d rd ∧ ¬ [!b, !b, b, b, b] <:+ dataBits d rd ∧
    ([!b, !b, b, b] <:+ dataBits d rd → (encodeSymbol d false rd).2 = b) := by decide

/-- A list not longer than a codeword with which a data line begins begins its first codeword. -/
theorem prefix_dataBits_of_prefix_dataLine {u : List Bool} {rd : Bool} {bytes : List (BitVec 8)} (hne : u ≠ [])
    (hlen : u.length ≤ 10) (h : u <+: dataLine rd bytes) : ∃ d, u <+: dataBits d rd := by
  cases bytes with
  | nil => exact absurd (List.prefix_nil.1 h) hne
  | cons d bytes =>
    rw [dataLine_cons] at h
    exact ⟨d, List.prefix_of_prefix_length_le h (List.prefix_append _ _) (by simpa [dataBits, transmitted] using hlen)⟩

/-- No comma sequence runs from a data codeword into the next, wherever it is cut. -/
theorem commaSequence_not_across {b rd : Bool} {d d' : BitVec 8} {u v : List Bool} (hu : u ≠ []) (hv : v ≠ [])
    (huv : commaSequence b = u ++ v) (hd : u <:+ dataBits d rd)
    (hd' : v <+: dataBits d' (encodeSymbol d false rd).2) : False := by
  obtain ⟨hend6, hend5, hend4⟩ := commaSequence_take_suffix_dataBits b d rd
  obtain ⟨hrun6, hrun4, hrun3⟩ := run_not_prefix_dataBits b d' (encodeSymbol d false rd).2
  have hlen : u.length + v.length = 7 := by rw [← List.length_append, ← huv]; rfl
  have hupos := List.length_pos_iff.2 hu
  have hvpos := List.length_pos_iff.2 hv
  have hle : u.length ≤ 6 := by omega
  have hutake : u = (commaSequence b).take u.length := by rw [huv, List.take_left]
  have hvdrop : v = (commaSequence b).drop u.length := by rw [huv, List.drop_left]
  rw [hutake] at hd
  rw [hvdrop] at hd'
  generalize u.length = k at hd hd' hupos hle
  interval_cases k
  · exact hrun6 hd'
  · exact hrun4 (List.IsPrefix.trans ⟨[b], rfl⟩ hd')
  · exact hrun4 hd'
  · exact hrun3 (hend4 hd) hd'
  · exact hend5 hd
  · exact hend6 hd

/-- No comma sequence lies anywhere in a line of data symbols. -/
theorem commaSequence_not_infix_dataLine (b rd : Bool) (bytes : List (BitVec 8)) :
    ¬ commaSequence b <:+: dataLine rd bytes := by
  induction bytes generalizing rd with
  | nil => simp [dataLine_nil, commaSequence]
  | cons d bytes ih =>
    rw [dataLine_cons, List.infix_append_iff_ne_nil]
    rintro (hin | hin | ⟨u, v, hu, hv, huv, hd, hrest⟩)
    · exact commaSequence_not_infix_dataBits b d rd hin
    · exact ih _ hin
    · have hlen : v.length ≤ 10 := by
        have := congrArg List.length huv
        simp [commaSequence] at this
        omega
      obtain ⟨d', hd'⟩ := prefix_dataBits_of_prefix_dataLine hv hlen hrest
      exact commaSequence_not_across hu hv huv hd hd'

theorem take_drop_dataLine_ne (b rd : Bool) (bytes : List (BitVec 8)) (k : Nat) :
    ((dataLine rd bytes).drop k).take 7 ≠ commaSequence b := fun h =>
  commaSequence_not_infix_dataLine b rd bytes
    (h ▸ (List.take_prefix _ _).isInfix.trans (List.drop_suffix _ _).isInfix)

/-- Every comma constant begins with a comma sequence. -/
theorem take_comma_constant : ∀ c ∈ commaConstants.map transmitted, ∃ b, c.take 7 = commaSequence b := by decide

/-- Settles O45: a comma constant begins with a comma sequence, and none of those lies in a codeword or across two. -/
theorem dataStreamsAreCommaFree : Obligations.DataStreamsAreCommaFree := by
  intro rd bytes k
  refine ⟨fun hmem => ?_, take_drop_dataLine_ne true rd bytes k, take_drop_dataLine_ne false rd bytes k⟩
  obtain ⟨b, hb⟩ := take_comma_constant _ hmem
  rw [List.take_take] at hb
  exact take_drop_dataLine_ne b rd bytes k hb

/-! ### The lane chain (R103, R104) -/

/-- The disparity before symbol `k` of a stream. -/
def disparityBefore (rd : Bool) (symbols : List Symbol) (k : Nat) : Bool :=
  lastDisparity rd (encodeLanes rd (symbols.take k))

theorem encodeLanes_getElem? (rd : Bool) {symbols : List Symbol} {k : Nat} {sym : Symbol} (h : symbols[k]? = some sym) :
    (encodeLanes rd symbols)[k]? =
      some (encodeSymbol sym.data sym.isControl (disparityBefore rd symbols k)) := by
  obtain ⟨hk, rfl⟩ := List.getElem?_eq_some_iff.1 h
  have hsplit : symbols = symbols.take k ++ symbols[k] :: symbols.drop (k + 1) := by simp
  have hlen : (encodeLanes rd (symbols.take k)).length = k := by
    rw [length_encodeLanes, List.length_take_of_le hk.le]
  conv_lhs => rw [hsplit, encodeLanes_append]
  rw [List.getElem?_append_right hlen.le, hlen, Nat.sub_self]
  rfl

theorem disparityBefore_succ (rd : Bool) {symbols : List Symbol} {k : Nat} {sym : Symbol}
    (h : symbols[k]? = some sym) :
    disparityBefore rd symbols (k + 1) = (encodeSymbol sym.data sym.isControl (disparityBefore rd symbols k)).2 := by
  rw [disparityBefore, List.take_add_one, h, Option.toList_some, encodeLanes_append, lastDisparity_append]
  rfl

/-- Settles O46: the chain is the disparity before each lane, and the fresh stage the lanes' codes along it. -/
theorem laneChain : Obligations.LaneChain := by
  intro symbols e
  refine ⟨disparityBefore e.rdReg symbols, rfl, ?_, fun k sym h => disparityBefore_succ _ h, e.fresh symbols,
    (e.fresh_wf rfl).out, (e.fresh_wf rfl).disp, fun k sym h => ?_, fun hp => ?_, fun hp => ?_⟩
  · rw [disparityBefore, List.take_length]
    rfl
  · rw [disparityBefore_succ _ h]
    simp [Encoder.fresh, encodeLanes_getElem? _ h]
  · rw [Encoder.tick_of_no_pipe symbols hp]
    exact ⟨rfl, rfl, rfl⟩
  · rw [Encoder.tick_of_pipe symbols hp]

/-! ### The latency (R105) -/

/-- All stages of the Encoder, newest first: those in flight and the output registers. -/
def Encoder.stages (e : Encoder) : List EncStage := e.pipe ++ [{ out := e.out, disp := e.disp }]

/-- A tick puts the fresh stage in front and drops the oldest. -/
theorem Encoder.stages_tick (symbols : List Symbol) (e : Encoder) :
    (e.tick symbols).stages = e.fresh symbols :: e.pipe := by
  by_cases hp : e.pipe = []
  · rw [Encoder.tick_of_no_pipe symbols hp, hp]
    rfl
  · rw [Encoder.tick_of_pipe symbols hp]
    simp [Encoder.stages, List.dropLast_append_getLast hp]

theorem Encoder.length_pipe_tick (symbols : List Symbol) (e : Encoder) :
    (e.tick symbols).pipe.length = e.pipe.length := by
  have h := congrArg List.length (e.stages_tick symbols)
  simpa [Encoder.stages] using h

theorem Encoder.ticks_cons (x : List Symbol) (xs : List (List Symbol)) (e : Encoder) :
    Encoder.ticks (x :: xs) e = Encoder.ticks xs (e.tick x) := rfl

theorem Encoder.ticks_append (xs ys : List (List Symbol)) (e : Encoder) :
    Encoder.ticks (xs ++ ys) e = Encoder.ticks ys (Encoder.ticks xs e) := List.foldl_append

theorem Encoder.length_pipe_ticks (inputs : List (List Symbol)) (e : Encoder) :
    (Encoder.ticks inputs e).pipe.length = e.pipe.length := by
  induction inputs generalizing e with
  | nil => rfl
  | cons x xs ih => rw [Encoder.ticks_cons, ih, Encoder.length_pipe_tick]

/-- The disparity chain does not see the pipeline. -/
theorem Encoder.ticks_rdReg {e one : Encoder} (inputs : List (List Symbol)) (h : one.rdReg = e.rdReg) :
    (Encoder.ticks inputs e).rdReg = (Encoder.ticks inputs one).rdReg := by
  induction inputs generalizing e one with
  | nil => exact h.symm
  | cons x xs ih => exact ih (by simp [Encoder.tick, h])

theorem Encoder.fresh_congr {e one : Encoder} (symbols : List Symbol) (h : e.rdReg = one.rdReg) :
    e.fresh symbols = one.fresh symbols := by simp [Encoder.fresh, h]

/-- Ticks move a stage down the pipeline, one place each. -/
theorem Encoder.stages_ticks (later : List (List Symbol)) (e : Encoder) (j : Nat)
    (hj : later.length + j ≤ e.pipe.length) : (Encoder.ticks later e).stages[later.length + j]? = e.stages[j]? := by
  induction later generalizing e j with
  | nil => simp [Encoder.ticks]
  | cons x xs ih =>
    rw [List.length_cons] at hj ⊢
    have hnext := ih (e.tick x) (j + 1) (by rw [Encoder.length_pipe_tick]; omega)
    rw [Encoder.ticks_cons, Nat.add_right_comm, Nat.add_assoc, hnext, Encoder.stages_tick, List.getElem?_cons_succ,
      Encoder.stages, List.getElem?_append_left (by omega)]

theorem Encoder.stages_getElem?_length (e : Encoder) :
    e.stages[e.pipe.length]? = some { out := e.out, disp := e.disp } := by
  rw [Encoder.stages, List.getElem?_concat_length]

/-- The stage the last of some inputs enters is the fresh one. -/
theorem Encoder.stages_ticks_concat (init : List (List Symbol)) (x : List Symbol) (e : Encoder) :
    (Encoder.ticks (init ++ [x]) e).stages[0]? = some ((Encoder.ticks init e).fresh x) := by
  rw [Encoder.ticks_append, Encoder.ticks_cons, Encoder.ticks, List.foldl_nil, Encoder.stages_tick,
    List.getElem?_cons_zero]

/-- Settles O47: the stage the last input enters reaches the output registers after as many ticks as there are in-flight
stages, and is the one the ENC_LATENCY = 1 Encoder puts there at once. -/
theorem latencyOnlyDelays : Obligations.LatencyOnlyDelays := by
  intro e one inputs later hne hone hrd hlen
  obtain ⟨init, x, rfl⟩ := (List.eq_nil_or_concat' inputs).resolve_left hne
  have hlate := Encoder.stages_getElem?_length (Encoder.ticks (init ++ [x] ++ later) e)
  have honce := Encoder.stages_getElem?_length (Encoder.ticks (init ++ [x]) one)
  rw [Encoder.length_pipe_ticks, ← hlen, Encoder.ticks_append] at hlate
  rw [Encoder.length_pipe_ticks, hone, List.length_nil, Encoder.stages_ticks_concat,
    ← Encoder.fresh_congr x (Encoder.ticks_rdReg init hrd), ← Encoder.stages_ticks_concat] at honce
  have hmoved := Encoder.stages_ticks later (Encoder.ticks (init ++ [x]) e) 0
    (by rw [Encoder.length_pipe_ticks, hlen, Nat.add_zero])
  rw [Nat.add_zero, hlate, honce, Option.some.injEq, EncStage.mk.injEq, ← Encoder.ticks_append] at hmoved
  exact ⟨hmoved.1, hmoved.2, Encoder.ticks_rdReg (init ++ [x]) hrd⟩

end Sys2Proof.Machine
end

section
/-! SUPPORT. The Word Aligner over a stream of input words (42_word_aligner.md): what the buffer holds, and which tick
matches which offset of the stream. -/

namespace Sys2Proof.Machine

/-- Settles O49: the buffer holds two words and `position` is an offset in the first. -/
theorem doutIsShiftedBuffer : Obligations.DoutIsShiftedBuffer := by
  intro p a h
  have hbuf := h.buf
  have hpos := h.position
  refine ⟨?_, fun k hk => ?_⟩
  · rw [Aligner.dout, Bits.field, List.length_take, List.length_drop]
    omega
  · rw [Aligner.dout, Bits.field, List.getElem?_take_of_lt hk, List.getElem?_drop]

theorem length_flatten_of_forall {m : Nat} {words : List Bits} (h : ∀ x ∈ words, x.length = m) :
    words.flatten.length = words.length * m := by
  rw [List.length_flatten, List.sum_eq_card_nsmul _ m (List.forall_mem_map.2 h), List.length_map, smul_eq_mul]

/-! ### The buffer after some ticks (R123, D14) -/

section
variable {w : Nat} {comma : Codeword}

theorem Aligner.ticks_cons (x : Bits) (xs : List Bits) (a : Aligner) :
    Aligner.ticks w comma (x :: xs) a = Aligner.ticks w comma xs (a.tick w comma x) := rfl

theorem Aligner.ticks_concat (xs : List Bits) (x : Bits) (a : Aligner) :
    Aligner.ticks w comma (xs ++ [x]) a = (Aligner.ticks w comma xs a).tick w comma x := by
  simp [Aligner.ticks, List.foldl_append]

/-- The buffer is the newest two words of the stream. -/
theorem Aligner.ticks_buf (inputs : List Bits) {a : Aligner} (ha : a.buf.length = 20 * w)
    (hin : ∀ x ∈ inputs, x.length = 10 * w) :
    (Aligner.ticks w comma inputs a).buf = (a.buf ++ inputs.flatten).drop (10 * w * inputs.length) := by
  induction inputs generalizing a with
  | nil => simp [Aligner.ticks]
  | cons x xs ih =>
    have hx := hin x List.mem_cons_self
    have hbuf : (a.tick w comma x).buf.length = 20 * w := by
      rw [Aligner.tick_buf, List.length_append, List.length_drop]
      omega
    rw [Aligner.ticks_cons, ih hbuf fun y hy => hin y (List.mem_cons_of_mem x hy), Aligner.tick_buf, List.append_assoc,
      ← List.drop_append_of_le_length (by omega), List.drop_drop, List.length_cons, Nat.mul_succ,
      Nat.add_comm (10 * w), List.flatten_cons]

/-! ### Matches -/

/-- A tick finds a comma exactly when a pattern begins in the older word of the buffer (R121, R123). -/
theorem Aligner.tick_commaFound (a : Aligner) (din : Bits) :
    (a.tick w comma din).commaFound = true ↔ ∃ j, j < 10 * w ∧ CommaAt comma a.buf j := by
  rcases a.tick_cases w comma din with ⟨j, hj, htick⟩ | ⟨hnone, htick⟩ <;> rw [htick]
  · obtain ⟨hlt, hmatch, -⟩ := getLast?_matchSet_eq_some.1 hj
    exact iff_of_true rfl ⟨j, hlt, hmatch⟩
  · refine iff_of_false nofun ?_
    rintro ⟨j, hlt, hmatch⟩
    exact getLast?_matchSet_eq_none.1 hnone j hlt hmatch

/-- A match is a matter of ten bits. -/
theorem commaAt_congr {u v : Bits} {i j : Nat} (h : ∀ k, k < 10 → u[i + k]? = v[j + k]?) :
    CommaAt comma u i ↔ CommaAt comma v j := by
  simp only [CommaAt, List.getElem?_drop]
  exact forall_congr' fun k => forall_congr' fun hk => by rw [h k hk]

end

/-- Settles O50: at the third tick the buffer is the two words `x` and `y`, in whose older one only `p` matches. -/
theorem commaLatchedAfterThreeTicks : Obligations.CommaLatchedAfterThreeTicks := by
  intro w comma a x y z p ha hx hy hz hp honly
  have hbuf : (Aligner.ticks w comma [x, y] a).buf = x ++ y := by
    rw [Aligner.ticks_buf [x, y] ha (by simp [hx, hy])]
    simp only [List.length_cons, List.length_nil, List.flatten_cons, List.flatten_nil, List.append_nil]
    exact List.drop_left' (by omega)
  have htick := Aligner.tick_of_highest_match (a := Aligner.ticks w comma [x, y] a) z hp
    (hbuf ▸ (honly p hp).2 rfl) (fun k hk hmatch => ((honly k hk).1 (hbuf ▸ hmatch)).le)
  have hticks : Aligner.ticks w comma [x, y, z] a = (Aligner.ticks w comma [x, y] a).tick w comma z := rfl
  rw [hticks, htick, hbuf, List.drop_left' hx]
  exact ⟨rfl, rfl, rfl⟩

/-- Settles O51: the older word of the buffer in the tick of word `n` is the `n`-th word-wide stretch of the stream, and
a pattern that begins in it ends in the buffer. -/
theorem eachCommaMatchedOnce : Obligations.EachCommaMatchedOnce := by
  intro w comma a inputs ha hin n hn
  have hin' : ∀ x ∈ inputs.take n, x.length = 10 * w := fun x hx => hin x (List.mem_of_mem_take hx)
  have hbuf := Aligner.ticks_buf (comma := comma) (inputs.take n) ha hin'
  have hlen := length_flatten_of_forall hin'
  rw [List.length_take_of_le hn.le] at hbuf hlen
  have hsplit : inputs.flatten = (inputs.take n).flatten ++ (inputs.drop n).flatten := by
    rw [← List.flatten_append, List.take_append_drop]
  rw [List.take_add_one, List.getElem?_eq_getElem hn, Option.toList_some, Aligner.ticks_concat,
    Aligner.tick_commaFound, hbuf]
  refine exists_congr fun j => and_congr_right fun hj => commaAt_congr fun k hk => ?_
  rw [List.getElem?_drop, hsplit, ← List.append_assoc, Nat.add_assoc]
  refine (List.getElem?_append_left ?_).symm
  rw [List.length_append, ha, hlen, Nat.mul_comm n]
  omega

end Sys2Proof.Machine
end

section
/-! SUPPORT. The PRBS Generator and Checker over a stream (43_prbs.md sections 2 to 4), in terms of the bit history. -/

namespace Sys2Proof.Machine

/-! ### Histories that the recurrence rules -/

theorem Bits.eq_replicate_iff {v : Bits} {n : Nat} :
    v = List.replicate n false ↔ v.length = n ∧ ∀ k, Bits.bit v k = false := by
  rw [List.eq_replicate_iff]
  refine and_congr_right fun _ => ⟨fun h k => ?_, fun h b hb => ?_⟩
  · rw [Bits.bit, List.getD_eq_getElem?_getD]
    cases hk : v[k]? with
    | none => rfl
    | some b => exact h b (List.mem_of_getElem? hk)
  · obtain ⟨k, hk⟩ := List.getElem?_of_mem hb
    have hbit := h k
    rwa [Bits.bit, List.getD_eq_getElem?_getD, hk] at hbit

theorem Bits.bit_of_length_le {v : Bits} {k : Nat} (h : v.length ≤ k) : Bits.bit v k = false := by
  rw [Bits.bit, List.getD_eq_getElem?_getD, List.getElem?_eq_none h, Option.getD_none]

/-- Forward in time: a zero register is followed by zeros. -/
theorem bit_eq_false_of_follows {l : Lfsr} {history : Bits} {n : Nat} (hf : ∀ k, k < n → Follows l history k)
    (hold : ∀ k, n ≤ k → Bits.bit history k = false) (k : Nat) : Bits.bit history k = false := by
  induction n with
  | zero => exact hold k (Nat.zero_le k)
  | succ n ih =>
    refine ih (fun k hk => hf k (Nat.lt_succ_of_lt hk)) fun k hk => ?_
    rcases hk.eq_or_lt with rfl | hk
    · rw [hf n n.lt_succ_self, hold _ (by omega), hold _ (by omega)]
      rfl
    · exact hold k hk

/-- Backward in time: with TAP2 at the top, the bit a step drops is fixed by the register after it, so a zero register
follows zeros. -/
theorem bit_eq_false_of_follows_back {l : Lfsr} {history : Bits} {n : Nat} (h1 : l.tap1 < l.tap2)
    (hf : ∀ k, k < n → Follows l history k) (hnew : ∀ k, k ≤ l.tap2 → Bits.bit history k = false) :
    ∀ k, k ≤ n + l.tap2 → Bits.bit history k = false := by
  induction n with
  | zero => simpa using hnew
  | succ n ih =>
    have hprev := ih fun k hk => hf k (Nat.lt_succ_of_lt hk)
    intro k hk
    rcases Nat.lt_or_ge k (n + 1 + l.tap2) with hlt | hge
    · exact hprev k (by omega)
    · have hstep := hf n n.lt_succ_self
      rw [Follows, hprev n (by omega), hprev (n + 1 + l.tap1) (by omega), Bool.false_xor] at hstep
      rw [Nat.le_antisymm hk hge, ← hstep]

theorem Lfsr.tap1_lt_tap2_of_legal {l : Lfsr} (hl : l.legal = true) : l.tap1 < l.tap2 := by
  simp only [Lfsr.legal, Bool.and_eq_true, decide_eq_true_eq] at hl
  exact hl.1.2

/-- Settles O53: the recurrence leads from zeros to zeros, and back when no bit drops without being tapped. -/
theorem zeroStateIsIsolated : Obligations.ZeroStateIsIsolated := by
  intro l nOut g hl hg
  obtain ⟨fresh, hlen, hfollows, htick⟩ := g.tick_history l nOut hl hg
  have hbit : ∀ k, Bits.bit (fresh ++ g.gstate) (nOut + k) = Bits.bit g.gstate k := fun k =>
    hlen ▸ Bits.bit_append_right fresh g.gstate k
  rw [htick]
  refine ⟨fun hzero => ?_, fun htap hzero => ?_⟩
  · obtain ⟨-, hold⟩ := Bits.eq_replicate_iff.1 hzero
    have hall := bit_eq_false_of_follows hfollows fun k hk => by
      rw [← Nat.add_sub_cancel' hk, hbit, hold]
    have hhistory : fresh ++ g.gstate = List.replicate (nOut + l.nState) false :=
      Bits.eq_replicate_iff.2 ⟨by rw [List.length_append, hlen, hg], hall⟩
    have hfresh := congrArg (List.take nOut) hhistory
    rw [List.take_left' hlen, List.take_replicate, min_eq_left (Nat.le_add_right _ _)] at hfresh
    refine ⟨?_, hfresh⟩
    rw [hhistory, List.take_replicate, min_eq_left (Nat.le_add_left _ _)]
  · obtain ⟨-, hnew⟩ := Bits.eq_replicate_iff.1 hzero
    have hall := bit_eq_false_of_follows_back (Lfsr.tap1_lt_tap2_of_legal hl) hfollows fun k hk => by
      rw [← Bits.bit_take _ (by omega : k < l.nState), hnew]
    refine Bits.eq_replicate_iff.2 ⟨hg, fun k => ?_⟩
    rcases Nat.lt_or_ge k l.nState with hk | hk
    · rw [← hbit, hall _ (by omega)]
    · exact Bits.bit_of_length_le (hg.le.trans hk)

/-! ### The Checker over words -/

/-- Only the newest `n` bits of a register are kept behind more bits. -/
theorem take_append_take (u v : Bits) (n : Nat) : (u ++ v.take n).take n = (u ++ v).take n := by
  rw [List.take_append, List.take_append, List.take_take, min_eq_left (Nat.sub_le _ _)]

/-- The flags of some bits see `N_STATE` bits before them. -/
theorem mismatches_append_take {l : Lfsr} (hl : l.legal = true) (u v : Bits) :
    mismatches l (u ++ v.take l.nState) u.length = mismatches l (u ++ v) u.length := by
  obtain ⟨h1, h2⟩ := Lfsr.taps_lt_of_legal hl
  have htake : ∀ k, k < u.length + l.nState → Bits.bit (u ++ v.take l.nState) k = Bits.bit (u ++ v) k := fun k hk => by
    rw [← Bits.bit_take (u ++ v) hk, List.take_length_add_append]
  refine List.map_congr_left fun k hk => ?_
  have hk' : k < u.length := List.mem_range.1 hk
  rw [htake k (by omega), htake _ (by omega), htake _ (by omega)]

section
variable {l : Lfsr} {c : Checker} (hl : l.legal = true) (hc : c.cstate.length = l.nState)
include hl hc

theorem Checker.tick_cstate (i : Bits) : (c.tick l i.length i).cstate = (i ++ c.cstate).take l.nState := by
  rw [c.tick_history l i hl hc]

theorem Checker.tick_errors (i : Bits) :
    (c.tick l i.length i).errors = mismatches l (i ++ c.cstate) i.length := by
  rw [c.tick_history l i hl hc]

theorem Checker.length_tick_cstate (i : Bits) : (c.tick l i.length i).cstate.length = l.nState := by
  rw [Checker.tick_cstate hl hc, List.length_take, List.length_append, hc]
  omega

end

/-- Settles O56: a flag sees the received bits before it, whichever word they came in. -/
theorem flagsIndependentOfWordWidth : Obligations.FlagsIndependentOfWordWidth := by
  intro l first second c hl hc
  have hc' := Checker.length_tick_cstate hl hc first
  have hlen : first.length + second.length = (second ++ first).length := by
    rw [List.length_append, Nat.add_comm]
  constructor
  · rw [hlen, Checker.tick_errors hl hc, Checker.tick_errors hl hc', Checker.tick_errors hl hc,
      Checker.tick_cstate hl hc, mismatches_append_take hl, List.length_append, List.append_assoc, mismatches_append]
  · rw [hlen, Checker.tick_cstate hl hc, Checker.tick_cstate hl hc', Checker.tick_cstate hl hc, take_append_take,
      List.append_assoc]

/-- The reference state after some words is the newest bits of all that were received. -/
theorem Checker.ticks_cstate {l : Lfsr} {nIn : Nat} (hl : l.legal = true) (words : List Bits) {c : Checker}
    (hc : c.cstate.length = l.nState) (hw : ∀ x ∈ words, x.length = nIn) :
    (Checker.ticks l nIn words c).cstate = (words.reverse.flatten ++ c.cstate).take l.nState := by
  induction words generalizing c with
  | nil => simp [Checker.ticks, hc]
  | cons x xs ih =>
    obtain rfl := hw x List.mem_cons_self
    have hxs : ∀ y ∈ xs, y.length = x.length := fun y hy => hw y (List.mem_cons_of_mem x hy)
    have hnext := ih (Checker.length_tick_cstate hl hc x) hxs
    rw [Checker.tick_cstate hl hc, take_append_take] at hnext
    simpa [Checker.ticks] using hnext

/-- Settles O55: once enough bits are received, none of the earlier state is left. -/
theorem checkerResynchronises : Obligations.CheckerResynchronises := by
  intro l nIn c words hl hc hw hmany
  have hlen : words.reverse.flatten.length = words.length * nIn := by
    rw [length_flatten_of_forall fun x hx => hw x (List.mem_reverse.1 hx), List.length_reverse]
  rw [Checker.ticks_cstate hl words hc hw, List.take_append_of_le_length (hlen ▸ hmany)]

/-! ### A clean stream -/

/-- Where the recurrence holds no flag is raised. -/
theorem mismatches_eq_replicate {l : Lfsr} {history : Bits} {n : Nat} (h : ∀ k, k < n → Follows l history k) :
    mismatches l history n = List.replicate n false := by
  refine List.eq_replicate_iff.2 ⟨length_mismatches _ _ _, List.forall_mem_map.2 fun k hk => ?_⟩
  rw [h k (List.mem_range.1 hk), Bool.xor_self]

theorem errorCountOf_replicate_false (n : Nat) : errorCountOf (List.replicate n false) = 0 := by
  simp [errorCountOf, Bits.popcount, List.count_replicate]

theorem Generator.tick_gstate {l : Lfsr} (hl : l.legal = true) {g : Generator} (hg : g.gstate.length = l.nState)
    (n : Nat) : (g.tick l n).gstate = ((g.tick l n).o ++ g.gstate).take l.nState := by
  obtain ⟨fresh, -, -, htick⟩ := g.tick_history l n hl hg
  rw [htick]

/-- The word of a tick of the Generator raises no flag in a Checker in its state. -/
theorem errorCount_of_synced {l : Lfsr} (hl : l.legal = true) {g : Generator} {c : Checker}
    (hg : g.gstate.length = l.nState) (heq : c.cstate = g.gstate) (n : Nat) :
    (c.tick l n (g.tick l n).o).errorCount = 0 := by
  obtain ⟨fresh, rfl, hfollows, htick⟩ := g.tick_history l n hl hg
  rw [htick, c.tick_history l fresh hl (heq ▸ hg), heq, mismatches_eq_replicate hfollows, errorCountOf_replicate_false]

/-- Fed the words of a Generator whose state agrees with its own in the newest `m` bits, the Checker counts no error in
a word once `N_STATE` bits agree, as each word adds its bits to those that agree. -/
theorem errorCount_of_agree {l : Lfsr} {n : Nat} (hl : l.legal = true) :
    ∀ (k m : Nat) (g : Generator) (c : Checker), g.gstate.length = l.nState → c.cstate.length = l.nState →
      c.cstate.take m = g.gstate.take m → l.nState ≤ m + k * n →
      (Checker.ticks l n (Generator.words l n (k + 1) g) c).errorCount = 0
  | 0, m, g, c, hg, hc, hagree, hm => by
    rw [List.take_of_length_le (by omega), List.take_of_length_le (by omega)] at hagree
    exact errorCount_of_synced hl hg hagree n
  | k + 1, m, g, c, hg, hc, hagree, hm => by
    have ho : (g.tick l n).o.length = n := by
      obtain ⟨fresh, hlen, -, htick⟩ := g.tick_history l n hl hg
      rw [htick, hlen]
    have hcs : (c.tick l n (g.tick l n).o).cstate = ((g.tick l n).o ++ c.cstate).take l.nState := by
      have h := Checker.tick_cstate hl hc (g.tick l n).o
      rwa [ho] at h
    have hgs := Generator.tick_gstate hl hg n
    have hword : ∀ v : Bits, ((g.tick l n).o ++ v).take (n + m) = (g.tick l n).o ++ v.take m := fun v => by
      rw [List.take_append, List.take_of_length_le (by omega), ho, Nat.add_sub_cancel_left]
    refine errorCount_of_agree hl k (n + m) (g.tick l n) (c.tick l n (g.tick l n).o) ?_ ?_ ?_ ?_
    · rw [hgs, List.length_take, List.length_append, hg]; omega
    · rw [hcs, List.length_take, List.length_append, hc]; omega
    · rw [hcs, hgs, List.take_take, List.take_take, Nat.min_comm, ← List.take_take, ← List.take_take, hword, hword,
        hagree]
    · rw [Nat.succ_mul] at hm; omega

/-- Settles O57: the states agree in every bit at the start, or in the bits of the words received. -/
theorem cleanStreamHasNoErrors : Obligations.CleanStreamHasNoErrors := by
  intro l n k g c hl hg hc hk hsync
  obtain ⟨k, rfl⟩ := Nat.exists_eq_add_of_le' hk
  rw [Nat.add_sub_cancel] at hsync
  rcases hsync with hmany | heq
  · exact errorCount_of_agree hl k 0 g c hg hc rfl (by omega)
  · exact errorCount_of_agree hl k l.nState g c hg hc (by rw [heq]) (by omega)

/-! ### One flipped bit -/

theorem Bits.bit_flipBit_append {v : Bits} {p : Nat} (hp : p < v.length) (u : Bits) (k : Nat) :
    Bits.bit (flipBit v p ++ u) k = (Bits.bit (v ++ u) k ^^ decide (k = p)) := by
  have hlen : (flipBit v p).length = v.length := List.length_set
  simp only [Bits.bit, List.getD_eq_getElem?_getD]
  rcases Nat.lt_or_ge k v.length with hk | hk
  · rw [List.getElem?_append_left (hlen ▸ hk), List.getElem?_append_left hk, flipBit, List.getElem?_set]
    rcases eq_or_ne p k with rfl | hne
    · simp [hp, Bits.bit]
    · simp [hne, hne.symm]
  · rw [List.getElem?_append_right (hlen ▸ hk), List.getElem?_append_right hk, hlen, decide_eq_false (by omega),
      Bool.xor_false]

theorem xor_flipped (x y a b c : Bool) : ((x ^^ y) ^^ a) = ((x ^^ b) ^^ (y ^^ c)) ↔ a = (b ^^ c) := by
  revert x y a b c
  decide

/-- In a clean history the recurrence fails exactly where one of the three bits it compares is flipped; never more than
one is. -/
theorem not_follows_flipBit {l : Lfsr} {v u : Bits} {p j : Nat} (h : l.tap1 < l.tap2) (hp : p < v.length)
    (hf : Follows l (v ++ u) j) :
    ¬ Follows l (flipBit v p ++ u) j ↔ j = p ∨ j + (l.tap1 + 1) = p ∨ j + (l.tap2 + 1) = p := by
  have e1 : j + 1 + l.tap1 = j + (l.tap1 + 1) := by omega
  have e2 : j + 1 + l.tap2 = j + (l.tap2 + 1) := by omega
  rw [Follows] at hf
  rw [Follows, Bits.bit_flipBit_append hp, Bits.bit_flipBit_append hp, Bits.bit_flipBit_append hp, hf, xor_flipped, e1,
    e2]
  by_cases h0 : j = p
  · simp [h0]
  · by_cases h1 : j + (l.tap1 + 1) = p
    · have h2 : j + (l.tap2 + 1) ≠ p := by omega
      simp [h0, h1, h2]
    · simp [h0, h1]

/-- The flags that are raised, counted by index. -/
theorem popcount_mismatches (l : Lfsr) (history : Bits) (n : Nat) :
    Bits.popcount (mismatches l history n) =
      ((Finset.range n).filter fun j => (mismatches l history n)[j]? = some true).card := by
  rw [← Nat.count_eq_card_filter_range, Nat.count, Bits.popcount, List.count]
  conv_lhs => rw [mismatches, List.countP_map]
  refine List.countP_congr fun k hk => ?_
  simp [mismatches, List.mem_range.1 hk]

/-- Settles O58: the flags of the flipped word are where the recurrence fails, and those are three places. -/
theorem singleErrorRaisesThreeFlags : Obligations.SingleErrorRaisesThreeFlags := by
  intro l i c p hl hc hp htap hclean
  have h12 := Lfsr.tap1_lt_tap2_of_legal hl
  have hlen : (flipBit i p).length = i.length := List.length_set
  have htick := c.tick_history l (flipBit i p) hl hc
  rw [hlen] at htick
  have hflags : ∀ j, j < i.length → ((mismatches l (flipBit i p ++ c.cstate) i.length)[j]? = some true ↔
      j = p ∨ j + (l.tap1 + 1) = p ∨ j + (l.tap2 + 1) = p) := fun j hj =>
    (getElem?_mismatches_eq_some_true l _ hj).trans (not_follows_flipBit h12 hp (hclean j hj))
  rw [htick]
  refine ⟨hflags, ?_⟩
  have hthree : ((Finset.range i.length).filter fun j =>
      (mismatches l (flipBit i p ++ c.cstate) i.length)[j]? = some true) =
      {p, p - (l.tap1 + 1), p - (l.tap2 + 1)} := by
    ext j
    rw [Finset.mem_filter, Finset.mem_range, and_congr_right fun hj => hflags j hj]
    simp only [Finset.mem_insert, Finset.mem_singleton]
    omega
  rw [errorCountOf, popcount_mismatches, hthree]
  exact Finset.card_eq_three.2 ⟨_, _, _, by omega, by omega, by omega, rfl⟩

/-! ### The count (R143, R147) -/

theorem length_checkBits (l : Lfsr) (bits : List Bool) (e errs : Bits) :
    (checkBits l bits e errs).2.length = bits.length + errs.length := by
  induction bits generalizing e errs with
  | nil => simp [checkBits]
  | cons b rest ih => rw [checkBits, ih, List.length_cons, List.length_cons]; omega

theorem lt_two_pow_clog2_succ (n : Nat) : n < 2 ^ clog2 (n + 1) := by
  rcases Nat.eq_zero_or_pos n with rfl | hn
  · exact Nat.two_pow_pos _
  · rw [clog2, if_neg (by omega), Nat.add_sub_cancel]
    exact Nat.lt_log2_self

/-- Settles O59: the count is of the tick's own flags, of which there is one per received bit. -/
theorem errorCountIsPopcount : Obligations.ErrorCountIsPopcount := by
  rintro l _ i c rfl
  have hle : (c.tick l i.length i).errorCount ≤ i.length := by
    refine List.count_le_length.trans_eq ?_
    rw [length_checkBits, List.length_reverse, List.length_nil, Nat.add_zero]
  exact ⟨rfl, hle, hle.trans_lt (lt_two_pow_clog2_succ _)⟩

end Sys2Proof.Machine
end
